-- ==== Sys2Proof/Word.lean ====
section
/-! DEFINITION. The widths of the machine's values. Their arithmetic is `BitVec`'s own `+`, `-`, `*`, `^^^`,
which is unsigned and exact modulo 2^64 (40_arithmetic_and_mixing.md R130 to R133, R136, R138). -/

namespace Sys2Proof

/-- A u64: a lane, the seed, the byte counter, a digest (00_scope.md R10 `XLEN`, R16). -/
abbrev Word := BitVec 64

/-- A u32: the 4-byte word of a tail (00_scope.md R16; 30_encoding.md R108). -/
abbrev Word32 := BitVec 32

/-- The unit of addressing, an unsigned byte (20_memory.md R72). -/
abbrev Byte := BitVec 8

/-- A command word of the `cmd` channel, 66 bits, bit 0 least significant (30_encoding.md R101; 00_scope.md R17). -/
abbrev CmdWord := BitVec 66

end Sys2Proof
end

