-- ==== Sys2Proof/Syntax.lean ====
section
/-! DEFINITION. The commands, one constructor per row of spec/opcode_table.json. -/

namespace Sys2Proof

/-- The core's whole instruction set (00_scope.md R2; 30_encoding.md R102). -/
inductive Instr where
  /-- RESET, format S: start a new stream with this seed (41_reset.md R160). -/
  | reset (seed : Word)
  /-- UPDATE, format L: absorb the next `len` bytes of `din` (42_update.md R170).
  The length is a count, a natural number; the word holds 64 bits of it (30_encoding.md R104; log entry 11). -/
  | update (len : Nat)
  /-- DIGEST, format Z: emit the running hash (43_digest.md R200). -/
  | digest
deriving DecidableEq, Repr

end Sys2Proof
end

