-- ==== Sys2Proof/WellFormed.lean ====
section
/-! DEFINITION. Which commands one command word can express. -/

namespace Sys2Proof

/-- Every seed is legal; a length is a u64, and a longer payload cannot be expressed in one command
(30_encoding.md R103, R104, R106). -/
def Instr.wf : Instr → Bool
  | .reset _ => true
  | .update len => decide (len < 2 ^ 64)
  | .digest => true

end Sys2Proof
end

