-- ==== Sys2Proof/Decode.lean ====
section
/-! DEFINITION. From command words to commands and back (30_encoding.md R101 to R116). -/

namespace Sys2Proof

/-- Why a word is no command (30_encoding.md R110). -/
inductive Reserved where
  /-- `op = 3`, any `arg`. -/
  | opcode
  /-- `op = 2` with `arg` not 0. -/
  | digestOperand
deriving DecidableEq, Repr

/-- What a command word decodes to: a command, or nothing, with the reason. -/
inductive Decoded where
  | instr (i : Instr)
  | reserved (r : Reserved)
deriving DecidableEq, Repr

/-- `op = cw[65:64]` (30_encoding.md R101). -/
def opOf (cw : CmdWord) : BitVec 2 := cw.extractLsb' 64 2

/-- `arg = cw[63:0]` (30_encoding.md R101). -/
def argOf (cw : CmdWord) : Word := cw.extractLsb' 0 64

/-- The decoder, total on 66-bit words (30_encoding.md R113). -/
def decode (cw : CmdWord) : Decoded :=
  if opOf cw = 0#2 then .instr (.reset (argOf cw))
  else if opOf cw = 1#2 then .instr (.update (argOf cw).toNat)
  else if opOf cw = 2#2 then
    if argOf cw = 0#64 then .instr .digest else .reserved .digestOperand
  else .reserved .opcode

/-- `cw = op * 2^64 + arg` (30_encoding.md R101). -/
def cmdWord (op : BitVec 2) (arg : Word) : CmdWord := (op ++ arg).cast rfl

/-- The command word of a command, from the formats S, L and Z (30_encoding.md R103 to R106, R113).
A length of 2^64 or more has no word: `Instr.wf` refuses it. -/
def encode : Instr → CmdWord
  | .reset seed => cmdWord 0#2 seed
  | .update len => cmdWord 1#2 (BitVec.ofNat 64 len)
  | .digest => cmdWord 2#2 0#64

/-- The 66-bit command word held in `nbits` bits of a number, where it is one: the table's 66 bits in whole bytes are
72, and a number with a bit set above bit 65 is no command word (log entry 8). -/
def tableWord (nbits w : Nat) : Option CmdWord :=
  if w % 2 ^ nbits < 2 ^ 66 then some (BitVec.ofNat 66 (w % 2 ^ nbits)) else none

/-- The command the decoder reads from the table's bits. A command word is one item of the `cmd` channel, not bytes in a
memory, so laying it out is taking it as a 66-bit number (30_encoding.md R100, R101). -/
def decodeTableWord (nbits w : Nat) : Option Instr :=
  match tableWord nbits w with
  | none => none
  | some cw =>
    match decode cw with
    | .instr i => some i
    | .reserved _ => none

end Sys2Proof
end

