-- ==== Sys2Proof/Config.lean ====
section
/-! DEFINITION. What an implementation fixes and the spec leaves open: the two open parameters of 00_scope.md R12
(92_eei_decisions.md section 2). Neither has a body: no proof can see a value of it. -/

namespace Sys2Proof

/-- `BUF_POWERON`: the byte that buffer address `a` holds from the `draw`-th hardware reset until something writes it.
Unspecified (00_scope.md R12; 10_state.md R45; 70_reset_and_hazards.md R280): a free value, one for every draw and
every address. DESIGN CHOICE that a draw is numbered: log entry 2. -/
opaque Config.bufPoweron (draw a : Nat) : Byte

/-- One less than `DIN_BEAT_BYTES`, so that the beat below is positive. UNVERIFIED value: open parameter. -/
opaque Config.dinBeatExtra : Nat

/-- `DIN_BEAT_BYTES`: how many payload bytes one transfer of the data channel moves, a positive natural
(00_scope.md R12; 30_encoding.md R100). Log entry 14. -/
def Config.dinBeatBytes : Nat := Config.dinBeatExtra + 1

end Sys2Proof
end

