-- ==== Sys2Proof/Machine/Constants.lean ====
section
/-! DEFINITION. The wired constants: definitions, neither state nor configuration (10_state.md R36; 00_scope.md R10).
The decimal literals are the source's (40_arithmetic_and_mixing.md R139). -/

namespace Sys2Proof.Machine

/-- Prime constant 1, 0x9E3779B185EBCA87. -/
def P1 : Word := 11400714785074694791#64

/-- Prime constant 2, 0xC2B2AE3D27D4EB4F. -/
def P2 : Word := 14029467366897019727#64

/-- Prime constant 3, 0x165667B19E3779F9. -/
def P3 : Word := 1609587929392839161#64

/-- Prime constant 4, 0x85EBCA77C2B2AE63. -/
def P4 : Word := 9650029242287828579#64

/-- Prime constant 5, 0x27D4EB2F165667C5. -/
def P5 : Word := 2870177450012600261#64

/-- The default seed when unseeded, 0xFFFFFFFFFFFFFFC5: hardware reset and RESETD use it
(44_compositions_and_laws.md R231; 70_reset_and_hazards.md R280). -/
def defaultSeed : Word := 18446744073709551557#64

end Sys2Proof.Machine
end

