-- ==== Sys2Proof/Machine/Lanes.lean ====
section
/-! DEFINITION. The four accumulator lanes (10_state.md R31, R49) and their values from a seed. -/

namespace Sys2Proof.Machine

/-- The accumulator file: four u64 registers that alias nothing (10_state.md R31, R49). -/
structure Lanes where
  v1 : Word
  v2 : Word
  v3 : Word
  v4 : Word
deriving DecidableEq, Repr

/-- The lanes RESET writes, and `LANES0` of the hash as a function
(41_reset.md R160; 44_compositions_and_laws.md R233). -/
def lanesOfSeed (seed : Word) : Lanes :=
  { v1 := seed + P1 + P2, v2 := seed + P2, v3 := seed, v4 := seed - P1 }

end Sys2Proof.Machine
end

