-- ==== Sys2Proof/Machine/State.lean ====
section
/-! DEFINITION. The state of one core with its channels (10_state.md R30, R54), the reasons a step can stop, and the
state after hardware reset (10_state.md R55; 70_reset_and_hazards.md R280). -/

namespace Sys2Proof.Machine

/-- The buffer's bytes that something has written since hardware reset, as (address, byte) pairs with strictly rising
addresses below 32 (`Memory.wf`). An address that is not listed has not been written (log entry 3). -/
abbrev Memory := List Host.Cell

/-- No constructor: the core raises no exception and has no fault (60_exceptions.md R250, R265; log entry 10). Safe: a
model without faults answers a next state or a refusal, and the spec gives each next state. -/
inductive Fault where
deriving DecidableEq, Repr

/-- Why the model gives no next state (60_exceptions.md R252). -/
inductive Refusal where
  /-- Raised by `exec` for an instruction without a meaning; no arm does. Safe: nothing is proved of such a run. -/
  | notModelled (mnemonic : String)
  /-- Raised by `step` when the next command word has `op = 3` (30_encoding.md R110). Safe: no next state. -/
  | reservedOpcode
  /-- Raised by `step` when the next command word has `op = 2` and `arg` not 0 (30_encoding.md R110). Safe: no next
  state. -/
  | reservedDigestOperand
deriving DecidableEq, Repr

/-- One core with its channels. -/
structure State where
  /-- `v1..v4` (10_state.md R31). -/
  lanes : Lanes
  /-- The seed of the last RESET (10_state.md R32). -/
  seed : Word
  /-- The written bytes of the 32-byte carry-over buffer (10_state.md R33; 20_memory.md R70). -/
  buffer : Memory
  /-- `buffer_len`: how many bytes of the buffer are valid, 0 to 31 (10_state.md R34). -/
  bufferLen : BitVec 5
  /-- `total_len`: the wrapping count of bytes submitted (10_state.md R35). -/
  totalLen : Word
  /-- `cmdq`: command words the core has not completed, oldest first (10_state.md R54). -/
  cmdq : List CmdWord
  /-- `dinq`: payload bytes no UPDATE has taken, oldest first (10_state.md R54; 20_memory.md R85). -/
  dinq : List Byte
  /-- `doutq`: digests the host has not taken, oldest first (10_state.md R54; 20_memory.md R86). -/
  doutq : List Word
  /-- An `rst` event falls within the next step, while its command is in progress (30_encoding.md R100;
  60_exceptions.md R255; log entry 4). A `rst` between two steps is `State.hostReset`. -/
  rst : Bool
  /-- The model's own field: which draw of `BUF_POWERON` the unwritten buffer bytes hold (log entry 2). -/
  bufDraw : Nat
deriving DecidableEq, Repr

/-- The state after hardware reset (10_state.md R55; 70_reset_and_hazards.md R280). `rst` and `bufDraw` are
DESIGN CHOICEs (log entries 4 and 2). -/
def State.reset : State :=
  { lanes := lanesOfSeed defaultSeed
    seed := defaultSeed
    buffer := []
    bufferLen := 0#5
    totalLen := 0#64
    cmdq := []
    dinq := []
    doutq := []
    rst := false
    bufDraw := 0 }

end Sys2Proof.Machine
end

