-- ==== Sys2Proof/Machine/Flags.lean ====
section
/-! DEFINITION. The core stores no flag (10_state.md R47). These are the three predicates that steer the sequencer,
computed from the state when needed; each compares natural numbers (40_arithmetic_and_mixing.md R151). -/

namespace Sys2Proof.Machine

/-- `buffer_len + len < 32`: UPDATE only appends (42_update.md R172). -/
def State.appends (s : State) (len : Nat) : Bool := decide (s.bufferLen.toNat + len < 32)

/-- `buffer_len > 0`: UPDATE first fills and eats the buffer (42_update.md R173). -/
def State.holdsBytes (s : State) : Bool := decide (0 < s.bufferLen.toNat)

/-- `total_len < 32`, on the wrapped register: DIGEST takes the short start (43_digest.md R201, R211). -/
def State.shortInput (s : State) : Bool := decide (s.totalLen.toNat < 32)

end Sys2Proof.Machine
end

