-- ==== Sys2Proof/Machine/Operands.lean ====
section
/-! DEFINITION. How bytes become words: little-endian reads, zero extension, slices of the payload, the words of a
stripe (20_memory.md R73 to R75; 30_encoding.md R107, R108; 40_arithmetic_and_mixing.md R137). -/

namespace Sys2Proof.Machine

/-- The number a byte sequence stands for, the first byte least significant (20_memory.md R73). -/
def leNat : List Byte → Nat
  | [] => 0
  | b :: bs => b.toNat + 256 * leNat bs

/-- `le64(s)`, for a sequence of 8 bytes (20_memory.md R73). -/
def le64 (s : List Byte) : Word := BitVec.ofNat 64 (leNat s)

/-- `le32(s)`, for a sequence of 4 bytes (20_memory.md R73). -/
def le32 (s : List Byte) : Word32 := BitVec.ofNat 32 (leNat s)

/-- `zext_64` of a 4-byte tail word (40_arithmetic_and_mixing.md R137). -/
def zext32 (k : Word32) : Word := k.setWidth 64

/-- `zext_64` of a tail byte (40_arithmetic_and_mixing.md R137). -/
def zext8 (b : Byte) : Word := b.setWidth 64

/-- `MemRead(PAY, a, n)`: the bytes `payload[a .. a+n)` of the running UPDATE (00_scope.md R19; 20_memory.md R70). -/
def memReadPay (payload : List Byte) (a n : Nat) : List Byte := (payload.drop a).take n

/-- Word `i` (from 0) of a stripe: the 8 bytes from offset `8 * i` (20_memory.md R75; 30_encoding.md R107). -/
def stripeWord (stripe : List Byte) (i : Nat) : Word := le64 ((stripe.drop (8 * i)).take 8)

end Sys2Proof.Machine
end

