-- ==== Sys2Proof/Machine/Mixing.lean ====
section
/-! DEFINITION. The mixing functions the three commands use (40_arithmetic_and_mixing.md). -/

namespace Sys2Proof.Machine

/-- `rotl64(x, r)` for `1 <= r <= 63` (40_arithmetic_and_mixing.md R134). -/
def rotl64 (x : Word) (r : Nat) : Word := (x <<< r) ||| (x >>> (64 - r))

/-- `ROUND(acc, w)` (40_arithmetic_and_mixing.md R140). -/
def round (acc w : Word) : Word := rotl64 (acc + w * P2) 31 * P1

/-- `STRIPE_EAT(lanes, b)`: word `wi` of the stripe goes to lane `vi` and to no other
(40_arithmetic_and_mixing.md R141, R142; 20_memory.md R75). -/
def stripeEat (l : Lanes) (stripe : List Byte) : Lanes :=
  { v1 := round l.v1 (stripeWord stripe 0)
    v2 := round l.v2 (stripeWord stripe 1)
    v3 := round l.v3 (stripeWord stripe 2)
    v4 := round l.v4 (stripeWord stripe 3) }

/-- `LANE_SUM` (40_arithmetic_and_mixing.md R143). -/
def laneSum (l : Lanes) : Word := rotl64 l.v1 1 + rotl64 l.v2 7 + rotl64 l.v3 12 + rotl64 l.v4 18

/-- `MERGE_ROUND(h, v)` (40_arithmetic_and_mixing.md R144). -/
def mergeRound (h v : Word) : Word := (h ^^^ round 0 v) * P1 + P4

/-- `LANE_MERGE`: the order `v1, v2, v3, v4` is normative (40_arithmetic_and_mixing.md R145; 90_conflicts.md C1). -/
def laneMerge (l : Lanes) : Word :=
  mergeRound (mergeRound (mergeRound (mergeRound (laneSum l) l.v1) l.v2) l.v3) l.v4

/-- `TAIL8(h, k)` (40_arithmetic_and_mixing.md R146). -/
def tail8 (h k : Word) : Word := rotl64 (h ^^^ round 0 k) 27 * P1 + P4

/-- `TAIL4(h, k32)`: `k32` is zero-extended and not passed through ROUND (40_arithmetic_and_mixing.md R147). -/
def tail4 (h : Word) (k : Word32) : Word := rotl64 (h ^^^ zext32 k * P1) 23 * P2 + P3

/-- `TAIL1(h, b)` (40_arithmetic_and_mixing.md R148). -/
def tail1 (h : Word) (b : Byte) : Word := rotl64 (h ^^^ zext8 b * P5) 11 * P1

/-- `h xor (h >> r)`, the shift step of the avalanche (40_arithmetic_and_mixing.md R135, R149). -/
def xorShift (h : Word) (r : Nat) : Word := h ^^^ (h >>> r)

/-- `AVALANCHE(h)` (40_arithmetic_and_mixing.md R149). -/
def avalanche (h : Word) : Word := xorShift (xorShift (xorShift h 33 * P2) 29 * P3) 32

/-- `AVALANCHE_INV(h)` (40_arithmetic_and_mixing.md R150): no command uses it. -/
def avalancheInv (h : Word) : Word :=
  let h1 := xorShift h 32 * 0xE9E9F4C41D6DF849#64
  let h2 := (h1 ^^^ (h1 >>> 29) ^^^ (h1 >>> 58)) * 0x0BA79078168D4BAF#64
  xorShift h2 33

end Sys2Proof.Machine
end

