-- ==== Sys2Proof/Machine/Ops.lean ====
section
/-! DEFINITION. The named operations on the buffer, the channels and the whole state.

The core has no exception to take and none to return from (60_exceptions.md R250, R256, R257). The one event that is
no command is hardware reset, here `State.hardwareReset` (60_exceptions.md R255). -/

namespace Sys2Proof.Machine

/-! ### The buffer as data -/

/-- What was last written to address `a`, if anything was. -/
def Memory.read : Memory → Nat → Option Byte
  | [], _ => none
  | (c, x) :: m, a => if a = c then some x else Memory.read m a

/-- `m` with byte `b` at address `a`, in rising order of addresses. -/
def Memory.write : Memory → Nat → Byte → Memory
  | [], a, b => [(a, b)]
  | (c, x) :: m, a, b =>
    if a < c then (a, b) :: (c, x) :: m
    else if a = c then (a, b) :: m
    else (c, x) :: Memory.write m a b

/-- The bytes `bs` written in order from address `a` upward, one byte each (20_memory.md R74, R79). -/
def Memory.writeBytes : Memory → Nat → List Byte → Memory
  | m, _, [] => m
  | m, a, b :: bs => Memory.writeBytes (Memory.write m a b) (a + 1) bs

/-- The canonical form: addresses strictly rising and in BUF, which has 32 bytes (20_memory.md R70). An unlisted address
has no written value, so no entry can equal what an unlisted address reads as. -/
abbrev Memory.wf (m : Memory) : Prop := m.Pairwise (fun p q => p.1 < q.1) ∧ ∀ p ∈ m, p.1 < 32

/-! ### The buffer as the commands see it -/

/-- The byte at buffer address `a`: what was last written there, and before that the free value of this draw of
`BUF_POWERON` (10_state.md R45; 93_implementation_defined.md I4). -/
def State.bufByte (s : State) (a : Nat) : Byte := (s.buffer.read a).getD (Config.bufPoweron s.bufDraw a)

/-- `MemRead(BUF, a, n)` (00_scope.md R19); the rules read only with `a + n <= 32` (20_memory.md R82). -/
def State.memReadBuf (s : State) : Nat → Nat → List Byte
  | _, 0 => []
  | a, n + 1 => s.bufByte a :: s.memReadBuf (a + 1) n

/-- `MemWrite(BUF, a, n, bs)` with `n = |bs|` (00_scope.md R19); the rules write only with `a + n <= 32`
(20_memory.md R82). -/
def State.memWriteBuf (s : State) (a : Nat) (bs : List Byte) : State :=
  { s with buffer := s.buffer.writeBytes a bs }

/-- `buffer[0 .. buffer_len)`, the valid bytes: the last `buffer_len` bytes of the stream (10_state.md R33). -/
def State.validBuf (s : State) : List Byte := s.memReadBuf 0 s.bufferLen.toNat

/-! ### The channels -/

/-- All `len` payload bytes of an UPDATE are on `din` (60_exceptions.md R253). -/
def State.payloadPresent (s : State) (len : Nat) : Bool := decide (len ≤ s.dinq.length)

/-- The payload of an UPDATE: the next `len` bytes of `din` (20_memory.md R85). -/
def State.payload (s : State) (len : Nat) : List Byte := s.dinq.take len

/-- The payload bytes are taken from the data channel once and are gone (20_memory.md R81, R85). -/
def State.consumePayload (s : State) (len : Nat) : State := { s with dinq := s.dinq.drop len }

/-- `emit(dout, d)`: append `d` to the digest channel (00_scope.md R19; 20_memory.md R86). -/
def State.emit (s : State) (d : Word) : State := { s with doutq := s.doutq ++ [d] }

/-- The command is complete and leaves the command channel; the next one may begin (20_memory.md R80, R84). A command
that still waits stays at the head of the channel (log entry 6). -/
def State.retire (s : State) : State := { s with cmdq := s.cmdq.tail }

/-- The command waits with everything as it is: it takes no payload byte and lets no later command begin
(60_exceptions.md R253; log entry 1). -/
def State.waits (s : State) : State := s

/-! ### Events -/

/-- Hardware reset: the state of `State.reset`, whatever the state before, with a new draw of the buffer's unspecified
bytes; queued commands, bytes and digests are discarded (70_reset_and_hazards.md R280, R281; 60_exceptions.md R255). -/
def State.hardwareReset (s : State) : State := { State.reset with bufDraw := s.bufDraw + 1 }

/-- An empty command channel: the core keeps its state (60_exceptions.md R264). -/
def State.idle (s : State) : State := s

/-- The command word the core takes next: the oldest on the command channel (20_memory.md R84). -/
def State.nextWord (s : State) : Option CmdWord := s.cmdq.head?

/-- The refusal of a reserved word (60_exceptions.md R252). -/
def refusalOf : Reserved → Refusal
  | .opcode => .reservedOpcode
  | .digestOperand => .reservedDigestOperand

end Sys2Proof.Machine
end

