-- ==== Sys2Proof/Machine/Digest.lean ====
section
/-! DEFINITION. The DIGEST command, its phases F1 to F7 in the spec's order (43_digest.md R200 to R208). -/

namespace Sys2Proof.Machine

/-- What a running DIGEST holds besides the state: the accumulator and the tail cursor (10_state.md R53). -/
structure TailCursor where
  h : Word
  tpos : Nat
  trem : Nat
deriving DecidableEq, Repr

/-- Phase F1: the short start, or the merge of the lanes (43_digest.md R201, R202). -/
def digestStart (s : State) : Word := if s.shortInput then s.seed + P5 else laneMerge s.lanes

/-- Phase F2: add the whole counter (43_digest.md R203). -/
def digestLength (s : State) (h : Word) : Word := h + s.totalLen

/-- Phase F3, the loop `while trem >= 8`; `fuel` bounds its iterations (43_digest.md R204). -/
def digestTail8 (s : State) : (fuel : Nat) → TailCursor → TailCursor
  | 0, c => c
  | fuel + 1, c =>
    if 8 ≤ c.trem then
      digestTail8 s fuel ⟨tail8 c.h (le64 (s.memReadBuf c.tpos 8)), c.tpos + 8, c.trem - 8⟩
    else c

/-- Phase F4: at most one 4-byte word (43_digest.md R205). -/
def digestTail4 (s : State) (c : TailCursor) : TailCursor :=
  if 4 ≤ c.trem then ⟨tail4 c.h (le32 (s.memReadBuf c.tpos 4)), c.tpos + 4, c.trem - 4⟩ else c

/-- Phase F5, the loop `while trem > 0`, one byte an iteration; `fuel` bounds its iterations
(43_digest.md R206; 90_conflicts.md C5). -/
def digestTail1 (s : State) : (fuel : Nat) → TailCursor → TailCursor
  | 0, c => c
  | fuel + 1, c =>
    if 0 < c.trem then digestTail1 s fuel ⟨tail1 c.h (s.bufByte c.tpos), c.tpos + 1, c.trem - 1⟩ else c

/-- Phases F3 to F5 from the start of the tail (43_digest.md R200, R209). -/
def digestTail (s : State) (h : Word) : Word :=
  let n := s.bufferLen.toNat
  (digestTail1 s n (digestTail4 s (digestTail8 s n ⟨h, 0, n⟩))).h

/-- The running hash, phases F1 to F6 (43_digest.md R200). -/
def digestValue (s : State) : Word := avalanche (digestTail s (digestLength s (digestStart s)))

/-- DIGEST: emit the running hash and change nothing of the hasher (43_digest.md R200, R208). -/
def execDigest (s : State) : Host.Outcome State Fault Refusal :=
  .next (s.emit (digestValue s)).retire

end Sys2Proof.Machine
end

