-- ==== Sys2Proof/Machine/Reset.lean ====
section
/-! DEFINITION. The RESET command (41_reset.md). -/

namespace Sys2Proof.Machine

/-- The seven writes of RESET. The buffer and the channels are not written; each right-hand side reads only the operand
(41_reset.md R160, R162). -/
def State.startStream (s : State) (seed : Word) : State :=
  { s with seed := seed, lanes := lanesOfSeed seed, totalLen := 0#64, bufferLen := 0#5 }

/-- RESET (41_reset.md R160). -/
def execReset (seed : Word) (s : State) : Host.Outcome State Fault Refusal :=
  .next (s.startStream seed).retire

end Sys2Proof.Machine
end

