-- ==== Sys2Proof/Machine/Update.lean ====
section
/-! DEFINITION. The UPDATE command, its phases U1 to U5 in the spec's order (42_update.md R170 to R175). -/

namespace Sys2Proof.Machine

/-- Phase U1, count: on every path, modulo 2^64 (42_update.md R171). -/
def updateCount (len : Nat) (s : State) : State := { s with totalLen := s.totalLen + BitVec.ofNat 64 len }

/-- Phase U2, append at offset `buffer_len`; no lane changes (42_update.md R172). -/
def updateAppend (payload : List Byte) (s : State) : State :=
  { s.memWriteBuf s.bufferLen.toNat payload with
    bufferLen := BitVec.ofNat 5 (s.bufferLen.toNat + payload.length) }

/-- Phase U3, fill the buffer up to 32 bytes and eat it, if it holds any; the cursor `pos` comes out
(42_update.md R173). -/
def updateFill (payload : List Byte) (s : State) : State × Nat :=
  if s.holdsBytes then
    let k := 32 - s.bufferLen.toNat
    let filled := s.memWriteBuf s.bufferLen.toNat (memReadPay payload 0 k)
    ({ filled with lanes := stripeEat filled.lanes (filled.memReadBuf 0 32), bufferLen := 0#5 }, k)
  else (s, 0)

/-- Phase U4, the loop `while len - pos >= 32` over direct stripes; `fuel` bounds its iterations
(42_update.md R174, R182). -/
def updateDirect (payload : List Byte) : (fuel : Nat) → State × Nat → State × Nat
  | 0, r => r
  | fuel + 1, (s, pos) =>
    if 32 ≤ payload.length - pos then
      updateDirect payload fuel ({ s with lanes := stripeEat s.lanes (memReadPay payload pos 32) }, pos + 32)
    else (s, pos)

/-- Phase U5, stash the remainder at offset 0 (42_update.md R175). -/
def updateStash (payload : List Byte) (r : State × Nat) : State :=
  let remainder := memReadPay payload r.2 (payload.length - r.2)
  { r.1.memWriteBuf 0 remainder with bufferLen := BitVec.ofNat 5 remainder.length }

/-- UPDATE with its whole payload in hand (42_update.md R170). -/
def updateBody (payload : List Byte) (s : State) : State :=
  let counted := updateCount payload.length s
  if counted.appends payload.length then updateAppend payload counted
  else updateStash payload (updateDirect payload (payload.length / 32) (updateFill payload counted))

/-- UPDATE: it has its effect when all `len` payload bytes are on `din`, and waits until then
(42_update.md R170; 60_exceptions.md R253). -/
def execUpdate (len : Nat) (s : State) : Host.Outcome State Fault Refusal :=
  if s.payloadPresent len then .next (updateBody (s.payload len) (s.consumePayload len)).retire
  else .next s.waits

end Sys2Proof.Machine
end

