-- ==== Sys2Proof/Machine/Dispatch.lean ====
section
/-! DEFINITION. One arm per command. -/

namespace Sys2Proof.Machine

def exec (i : Instr) (s : State) : Host.Outcome State Fault Refusal :=
  match i with
  | .reset seed => Sys2Proof.Machine.execReset seed s
  | .update len => Sys2Proof.Machine.execUpdate len s
  | .digest => Sys2Proof.Machine.execDigest s

end Sys2Proof.Machine
end

