-- ==== Sys2Proof/Machine/Fetch.lean ====
section
/-! DEFINITION. Placing one command where `step` takes its next (log entry 7). The core fetches nothing itself: a program
is what the host has put on the command and data channels (20_memory.md R89; 70_reset_and_hazards.md R294). -/

namespace Sys2Proof.Machine

/-- The 66-bit word in `nbits` bits of `w`; bits above bit 65 have no place on the command channel. -/
def wordAt (nbits w : Nat) : CmdWord := BitVec.ofNat 66 (w % 2 ^ nbits)

/-- The longest payload `State.loadWord` supplies (DESIGN CHOICE, log entry 7). -/
def loadLimit : Nat := 256

/-- The payload placed beside a word: for an UPDATE of at most `loadLimit` bytes as many zero bytes as it asks for
(operand bits that the word does not hold are zeros), for any other word nothing. -/
def loadPayload (cw : CmdWord) : List Byte :=
  match decode cw with
  | .instr (.update len) => if len ≤ loadLimit then List.replicate len 0#8 else []
  | _ => []

/-- `s` with `cw` as the next command word, its payload as the next bytes, and no reset within the next step. -/
def State.loadWord (s : State) (cw : CmdWord) : State :=
  { s with cmdq := cw :: s.cmdq, dinq := loadPayload cw ++ s.dinq, rst := false }

end Sys2Proof.Machine
end

