-- ==== Sys2Proof/Machine/Step.lean ====
section
/-! DEFINITION. One step of the core at the transaction level: one whole command (00_scope.md R13). -/

namespace Sys2Proof.Machine

/-- A hardware reset that falls within the step overrides everything: the command is abandoned. Otherwise the oldest command word runs, is refused if it is reserved,
and with no word the core keeps its state (60_exceptions.md R252, R255, R264, R265; 20_memory.md R84). -/
def step (s : State) : Host.Outcome State Fault Refusal :=
  if s.rst then .next s.hardwareReset
  else
    match s.nextWord with
    | none => .next s.idle
    | some cw =>
      match decode cw with
      | .instr i => exec i s
      | .reserved r => .refused (refusalOf r)

/-- `s` with the command word that `decodeTableWord nbits w` reads at the head of the command channel, no reset in the step,
and the payload the word asks for at the head of the data channel (`State.loadWord`): the very next step runs it. -/
def State.withFetchWord (s : State) (nbits w : Nat) : State := s.loadWord (wordAt nbits w)

end Sys2Proof.Machine
end

