-- ==== Sys2Proof/Machine/HostInterface.lean ====
section
/-! DEFINITION. What the host can do to the core (30_encoding.md R100; 70_reset_and_hazards.md R295). Each is one input,
and inputs land between two steps, but for `rst`, which can also fall within a step (log entry 4). The host touches the hasher state in no other way. -/

namespace Sys2Proof.Machine

/-- Put one command word on `cmd`. -/
def State.hostCommand (s : State) (cw : CmdWord) : State := { s with cmdq := s.cmdq ++ [cw] }

/-- One transfer on `din`: a beat of bytes, the lowest stream offset first (30_encoding.md R100). -/
def State.hostBeat (s : State) (beat : List Byte) : State := { s with dinq := s.dinq ++ beat }

/-- Payload bytes sent in beats of `width` bytes, the last one shorter where they do not divide (log entry 14); `fuel`
bounds the beats. -/
def State.hostBeats (width : Nat) : (fuel : Nat) → List Byte → State → State
  | 0, _, s => s
  | _ + 1, [], s => s
  | fuel + 1, b :: bs, s =>
    State.hostBeats width fuel ((b :: bs).drop width) (s.hostBeat ((b :: bs).take width))

/-- Payload bytes sent with `width` bytes a transfer. -/
def State.hostPayloadIn (s : State) (width : Nat) (bytes : List Byte) : State :=
  State.hostBeats width bytes.length bytes s

/-- Payload bytes sent as this implementation's data channel moves them, `DIN_BEAT_BYTES` a transfer
(00_scope.md R12). -/
def State.hostPayload (s : State) (bytes : List Byte) : State := s.hostPayloadIn Config.dinBeatBytes bytes

/-- Take the oldest digest from `dout`, if there is one; it changes nothing else (20_memory.md R86). -/
def State.hostTakeDigest (s : State) : Option Word × State :=
  (s.doutq.head?, { s with doutq := s.doutq.tail })

/-- The `rst` event between two steps: hardware reset, at once. Queued commands, bytes and digests are gone, and what the
host sends after it stays (70_reset_and_hazards.md R280, R281, R295; 60_exceptions.md R255). -/
def State.hostReset (s : State) : State := s.hardwareReset

/-- The `rst` event while a command is in progress: it falls within the next step, which it turns into a hardware reset
(60_exceptions.md R255). What the host does before that step it does before the event. DESIGN CHOICE: an event inside a
step is told to the step beforehand (log entry 4). -/
def State.hostResetWithinStep (s : State) : State := { s with rst := true }

end Sys2Proof.Machine
end

