-- ==== Sys2Proof/Machine/Listing.lean ====
section
/-! DEFINITION. Commands with their payload, the pseudo-instructions, and their command words and payload bytes
(10_state.md R54; 30_encoding.md R114, R115; 44_compositions_and_laws.md R230, R231). -/

namespace Sys2Proof.Machine

/-- A command as a transaction: an UPDATE carries its payload with it (10_state.md R54). -/
inductive Command where
  | reset (seed : Word)
  | update (payload : List Byte)
  | digest
deriving DecidableEq, Repr

/-- One line of a listing: a command or a pseudo-instruction (30_encoding.md R114, R115). -/
inductive Listing where
  | command (c : Command)
  /-- `ONESHOT bytes, seed` (44_compositions_and_laws.md R230). -/
  | oneshot (bytes : List Byte) (seed : Word)
  /-- `RESETD`, the unseeded reset (44_compositions_and_laws.md R231). -/
  | resetd
deriving DecidableEq, Repr

/-- The commands a line stands for (30_encoding.md R115). -/
def Listing.expand : Listing → List Command
  | .command c => [c]
  | .oneshot bytes seed => [.reset seed, .update bytes, .digest]
  | .resetd => [.reset defaultSeed]

/-- The instruction of a command: an UPDATE's `len` is the number of its payload bytes (30_encoding.md R114). -/
def Command.instr : Command → Instr
  | .reset seed => .reset seed
  | .update payload => .update payload.length
  | .digest => .digest

/-- The bytes a command puts on `din` (30_encoding.md R104, R114). -/
def Command.payload : Command → List Byte
  | .update payload => payload
  | _ => []

/-- The command words of a sequence of commands. -/
def commandWords (cs : List Command) : List CmdWord := cs.map (fun c => encode c.instr)

/-- The payload bytes of a sequence of commands, in order (20_memory.md R85). -/
def commandBytes (cs : List Command) : List Byte := cs.flatMap Command.payload

/-- The host puts the words and the bytes of a sequence of commands on the channels. -/
def State.issue (s : State) (cs : List Command) : State :=
  { s with cmdq := s.cmdq ++ commandWords cs, dinq := s.dinq ++ commandBytes cs }

end Sys2Proof.Machine
end

