-- ==== Sys2Proof/Machine/Xxh64.lean ====
section
/-! DEFINITION. The digest as a function of seed and message (44_compositions_and_laws.md R233), the stream view of the
state (10_state.md R41), the single-byte step (42_update.md R181), and the buffer of the reference vectors with its pieces
(44_compositions_and_laws.md R242). The machine does not use them. -/

namespace Sys2Proof.Machine

/-- `STRIPE_EAT` applied to the first `q` 32-byte blocks of `m`, in order. -/
def eatStripes : (q : Nat) → Lanes → List Byte → Lanes
  | 0, l, _ => l
  | q + 1, l, m => eatStripes q (stripeEat l (m.take 32)) (m.drop 32)

/-- `STRIPE_EAT` applied to every whole 32-byte block of `m`, in order. -/
def eatAll (l : Lanes) (m : List Byte) : Lanes := eatStripes (m.length / 32) l m

/-- The bytes of `m` after its whole 32-byte blocks, `m[32*q .. n)`. -/
def tailOf (m : List Byte) : List Byte := m.drop (32 * (m.length / 32))

/-- `TAIL8` over the first `n` 8-byte words of `t`. -/
def tailWords : (n : Nat) → Word → List Byte → Word
  | 0, h, _ => h
  | n + 1, h, t => tailWords n (tail8 h (le64 (t.take 8))) (t.drop 8)

/-- `ONES(h, t)`. -/
def tailOnes (h : Word) (t : List Byte) : Word := t.foldl tail1 h

/-- At most one `TAIL4`, then `ONES`, for fewer than 8 bytes. -/
def tailShort (h : Word) (t : List Byte) : Word :=
  if 4 ≤ t.length then tailOnes (tail4 h (le32 (t.take 4))) (t.drop 4) else tailOnes h t

/-- `TAILFOLD(h, t)`: 8-byte words while at least 8 bytes remain, then one 4-byte word, then bytes. -/
def tailFold (h : Word) (t : List Byte) : Word :=
  tailShort (tailWords (t.length / 8) h t) (t.drop (8 * (t.length / 8)))

/-- `H0` of `XXH64`: the test is on the length modulo 2^64. -/
def xxh64Start (seed : Word) (m : List Byte) : Word :=
  if m.length % 2 ^ 64 < 32 then seed + P5 else laneMerge (eatAll (lanesOfSeed seed) m)

/-- `XXH64(s, m)` (44_compositions_and_laws.md R233). -/
def xxh64 (seed : Word) (m : List Byte) : Word :=
  avalanche (tailFold (xxh64Start seed m + BitVec.ofNat 64 m.length) (tailOf m))

/-- The stream view of the state: `seed` is the seed of the last RESET and `m` the stream since then
(10_state.md R41). -/
structure StreamState (s : State) (seed : Word) (m : List Byte) : Prop where
  seed_eq : s.seed = seed
  total_eq : s.totalLen = BitVec.ofNat 64 m.length
  fill_eq : s.bufferLen.toNat = m.length % 32
  bytes_eq : s.validBuf = tailOf m
  lanes_eq : s.lanes = eatAll (lanesOfSeed seed) m

/-- The digests a sequence of commands returns from the stream `m` under `seed` (44_compositions_and_laws.md R234). -/
def digestsOf : Word → List Byte → List Command → List Word
  | _, _, [] => []
  | _, _, .reset seed :: cs => digestsOf seed [] cs
  | seed, m, .update p :: cs => digestsOf seed (m ++ p) cs
  | seed, m, .digest :: cs => xxh64 seed m :: digestsOf seed m cs

/-- `UPDATE1(x)`, the single-byte step on the hasher state (42_update.md R181). -/
def State.update1 (s : State) (x : Byte) : State :=
  let written := { s.memWriteBuf s.bufferLen.toNat [x] with totalLen := s.totalLen + 1#64 }
  if s.bufferLen = 31#5 then
    { written with lanes := stripeEat written.lanes (written.memReadBuf 0 32), bufferLen := 0#5 }
  else { written with bufferLen := s.bufferLen + 1#5 }

/-- The first `n` bytes of the recurrence `r[i] = r[i-1] * r[i-1]` modulo 2^32, the top byte of each. -/
def testBytes : (n : Nat) → (r : Word32) → List Byte
  | 0, _ => []
  | n + 1, r => (r >>> 24).setWidth 8 :: testBytes n (r * r)

/-- `buf[0 .. n)` of the reference vectors (95_test_vectors.md section 1). -/
def testBuffer (n : Nat) : List Byte := testBytes n 2654435761#32

/-- The pieces of `size` bytes of a message, the last one shorter where they do not divide; `fuel` bounds them. -/
def piecesFrom (size : Nat) : (fuel : Nat) → List Byte → List (List Byte)
  | 0, _ => []
  | _ + 1, [] => []
  | fuel + 1, b :: bs => (b :: bs).take size :: piecesFrom size fuel ((b :: bs).drop size)

/-- A message cut into pieces of `size` bytes. -/
def piecesOf (size : Nat) (m : List Byte) : List (List Byte) := piecesFrom size m.length m

end Sys2Proof.Machine
end

