-- ==== Sys2Proof/Safety.lean ====
section
/-! DEFINITION. What counts as a safe state of the core, in the terms the statements use. -/

namespace Sys2Proof.Machine

/-- The core's invariant: the buffer keeps its canonical form inside BUF, `buffer_len` is `total_len` modulo 32
(10_state.md R40), and every valid buffer byte has been written since hardware reset, so that no free value of
`BUF_POWERON` is read (10_state.md R45; 43_digest.md R214). -/
structure State.Inv (s : State) : Prop where
  buffer_wf : s.buffer.wf
  fill_eq : s.bufferLen.toNat = s.totalLen.toNat % 32
  valid_written : ∀ a, a < s.bufferLen.toNat → (s.buffer.read a).isSome = true

/-- The two states agree on everything of the hasher that a later digest can depend on: all but the stale buffer bytes
(10_state.md R45). -/
structure SameStream (s t : State) : Prop where
  lanes_eq : s.lanes = t.lanes
  seed_eq : s.seed = t.seed
  fill_eq : s.bufferLen = t.bufferLen
  total_eq : s.totalLen = t.totalLen
  bytes_eq : s.validBuf = t.validBuf

/-- The two states differ in hidden state only: in stale buffer bytes and in the draw of `BUF_POWERON`
(10_state.md R51). -/
structure SameView (s t : State) : Prop where
  stream_eq : SameStream s t
  cmdq_eq : s.cmdq = t.cmdq
  dinq_eq : s.dinq = t.dinq
  doutq_eq : s.doutq = t.doutq
  rst_eq : s.rst = t.rst

end Sys2Proof.Machine
end

