-- ==== Sys2Proof/Certificates/Slice0/Obligations.lean ====
section
/-! DEFINITION. The statements for the provers. Each docstring names the rule of spec/ it formalises; where a clause is the
model's own choice, the docstring says so and names the log entry. -/

open Sys2Proof Sys2Proof.Machine

/-! ### Encoding -/

/-- The rows of the opcode table select the words whose masked bits match, and every other word is reserved
(30_encoding.md R103, R105; section 6). -/
def Obligations.RowsSelectByMaskAndMatch : Prop :=
  ∀ cw : CmdWord,
    (cw &&& 0x30000000000000000#66 = 0x00000000000000000#66 →
      decode cw = .instr (.reset (BitVec.ofNat 64 cw.toNat))) ∧
    (cw &&& 0x30000000000000000#66 = 0x10000000000000000#66 →
      decode cw = .instr (.update (cw.toNat % 2 ^ 64))) ∧
    (cw &&& 0x3FFFFFFFFFFFFFFFF#66 = 0x20000000000000000#66 → decode cw = .instr .digest) ∧
    (cw &&& 0x30000000000000000#66 ≠ 0x00000000000000000#66 →
      cw &&& 0x30000000000000000#66 ≠ 0x10000000000000000#66 →
      cw &&& 0x3FFFFFFFFFFFFFFFF#66 ≠ 0x20000000000000000#66 → ∃ r, decode cw = .reserved r)

/-- The reserved words are `0x2_0000000000000001` to `0x2_FFFFFFFFFFFFFFFF` and `0x3_0000000000000000` to
`0x3_FFFFFFFFFFFFFFFF` (30_encoding.md R110). The two names are the model's (log entry 9). -/
def Obligations.ReservedWordsAreTheTwoRanges : Prop :=
  ∀ cw : CmdWord,
    (decode cw = .reserved .digestOperand ↔
      0x20000000000000001 ≤ cw.toNat ∧ cw.toNat ≤ 0x2FFFFFFFFFFFFFFFF) ∧
    (decode cw = .reserved .opcode ↔ 0x30000000000000000 ≤ cw.toNat)

/-- Decoding the word of a well-formed command gives the command back, with every operand at every value
(30_encoding.md section 4). -/
def Obligations.EncodeThenDecodeIsIdentity : Prop :=
  ∀ i : Instr, i.wf = true → decode (encode i) = .instr i

/-- A word that is not reserved is the word of the command it decodes to, and that command is well-formed
(30_encoding.md section 4). -/
def Obligations.DecodeThenEncodeIsIdentity : Prop :=
  ∀ (cw : CmdWord) (i : Instr), decode cw = .instr i → i.wf = true ∧ encode i = cw

/-- The words of 95_test_vectors.md section 2.7, one of each family and two reserved ones. -/
def Obligations.SampleWordsDecode : Prop :=
  decode 0x0000000009E3779B1#66 = .instr (.reset 2654435761#64) ∧
  decode 0x1000000000000000E#66 = .instr (.update 14) ∧
  decode 0x20000000000000000#66 = .instr .digest ∧
  decode 0x28000000000000000#66 = .reserved .digestOperand ∧
  decode 0x3FFFFFFFFFFFFFFFF#66 = .reserved .opcode

/-- The pseudo-instructions expand to the commands of 30_encoding.md R115 and have no encoding of their own: their words
are those of the commands they expand to, and every word that decodes to anything is one of the three commands'. -/
def Obligations.PseudoInstructionsExpand : Prop :=
  (∀ (bytes : List Byte) (seed : Word),
    (Listing.oneshot bytes seed).expand = [.reset seed, .update bytes, .digest] ∧
    commandWords (Listing.oneshot bytes seed).expand =
      [encode (.reset seed), encode (.update bytes.length), encode .digest]) ∧
  Listing.resetd.expand = [.reset 0xFFFFFFFFFFFFFFC5#64] ∧
  commandWords Listing.resetd.expand = [encode (.reset 0xFFFFFFFFFFFFFFC5#64)] ∧
  ∀ (cw : CmdWord) (i : Instr), decode cw = .instr i →
    (∃ seed, cw = encode (.reset seed)) ∨ (∃ len, len < 2 ^ 64 ∧ cw = encode (.update len)) ∨ cw = encode .digest

/-! ### The step -/

/-- The values of the state after hardware reset (10_state.md R55; 70_reset_and_hazards.md R280): the registers and the
channels. The buffer's content is unspecified: every byte of it is the free value of the first draw, which is the model's
form of it (log entry 2). -/
def Obligations.ResetStateHasTheSpecifiedValues : Prop :=
  State.reset.lanes = ⟨0x60EA27EEADC0B59B#64, 0xC2B2AE3D27D4EB14#64, 0xFFFFFFFFFFFFFFC5#64, 0x61C8864E7A14353E#64⟩ ∧
  State.reset.seed = 0xFFFFFFFFFFFFFFC5#64 ∧
  State.reset.totalLen = 0#64 ∧ State.reset.bufferLen = 0#5 ∧
  State.reset.cmdq = [] ∧ State.reset.dinq = [] ∧ State.reset.doutq = [] ∧
  ∀ a, State.reset.bufByte a = Config.bufPoweron 0 a

/-- Whatever the core was doing and whatever is queued, a reserved word included, `rst` puts it in the state of
`RESET DEFAULT_SEED` with empty channels: at once between two steps, and as the outcome of the step where it falls within
one, whose command is abandoned (60_exceptions.md section 3; 70_reset_and_hazards.md section 1). That the step is told of
the event by a field, and the new draw of the buffer bytes, are the model's (log entries 4 and 2). -/
def Obligations.HardwareResetOverridesEverything : Prop :=
  ∀ s : State,
    (s.hostReset.lanes =
        ⟨0x60EA27EEADC0B59B#64, 0xC2B2AE3D27D4EB14#64, 0xFFFFFFFFFFFFFFC5#64, 0x61C8864E7A14353E#64⟩ ∧
      s.hostReset.seed = 0xFFFFFFFFFFFFFFC5#64 ∧ s.hostReset.totalLen = 0#64 ∧ s.hostReset.bufferLen = 0#5 ∧
      s.hostReset.cmdq = [] ∧ s.hostReset.dinq = [] ∧ s.hostReset.doutq = [] ∧ s.hostReset.rst = false ∧
      ∀ a, s.hostReset.bufByte a = Config.bufPoweron (s.bufDraw + 1) a) ∧
    (s.rst = true → step s = .next s.hostReset)

/-- An idle core keeps its state (60_exceptions.md section 10). That an idle core takes a step at all, to a next state
equal to the one before, is the model's form of it (log entry 1): the spec's mapping of outcomes calls the empty queue
stuck (60_exceptions.md section 11). -/
def Obligations.IdleCoreKeepsItsState : Prop :=
  ∀ s : State, s.rst = false → s.cmdq = [] → step s = .next s

/-- When the oldest command word decodes to a command, the step is that command's meaning at that state, and the command
is one a word can express (20_memory.md section 5). The step adds nothing around it. -/
def Obligations.StepRunsTheDecodedCommand : Prop :=
  ∀ (s : State) (cw : CmdWord) (rest : List CmdWord) (i : Instr),
    s.rst = false → s.cmdq = cw :: rest → decode cw = .instr i → i.wf = true ∧ step s = exec i s

/-- A reserved word is refused, and only a reserved word is: no next state, now or in any longer run (60_exceptions.md
section 1, refusal of reserved words). That every other word answers a next state, an UPDATE short of its payload
included, is the model's form of waiting (log entry 1): 60_exceptions.md R253 and R265 say that such an UPDATE has no
step yet. -/
def Obligations.OnlyReservedWordsAreRefused : Prop :=
  ∀ (s : State) (cw : CmdWord) (rest : List CmdWord), s.rst = false → s.cmdq = cw :: rest →
    (0x20000000000000000 < cw.toNat → ∃ r, ∀ k, Host.Core.run Sys2Proof.core (k + 1) s = .refused r) ∧
    (cw.toNat ≤ 0x20000000000000000 → ∃ t, step s = .next t)

/-- A placed command is the very next one to run (the model's choice, log entry 7). -/
def Obligations.PlacedWordRunsNext : Prop :=
  ∀ (s : State) (nbits w : Nat) (i : Instr), decodeTableWord nbits w = some i →
    step (s.withFetchWord nbits w) = exec i (s.withFetchWord nbits w)

/-- A step that is no hardware reset either completes the oldest command, and no other, with the bytes that command claims
all on `din`, and takes those bytes and no more (20_memory.md section 5; 60_exceptions.md section 1), or changes nothing
at all; it does the latter only when there is no command or when the oldest is an UPDATE whose payload is not all present.
That an idle core and a waiting command take a step that changes nothing, and that the waiting word stays at the head of
the command channel, are the model's (log entries 1 and 6). -/
def Obligations.CommandsCompleteOneAtATimeInOrder : Prop :=
  ∀ s t : State, s.rst = false → step s = .next t →
    (∃ cw rest i, s.cmdq = cw :: rest ∧ decode cw = .instr i ∧ t.cmdq = rest ∧
      match i with
      | .update len => len ≤ s.dinq.length ∧ t.dinq = s.dinq.drop len
      | _ => t.dinq = s.dinq) ∨
    (t = s ∧ s.cmdq = []) ∨
    (t = s ∧ ∃ cw rest len, s.cmdq = cw :: rest ∧ decode cw = .instr (.update len) ∧ s.dinq.length < len)

/-- A step that is no hardware reset puts one value at the end of the digest channel when it runs a DIGEST and leaves the
channel as it is otherwise (20_memory.md section 5). -/
def Obligations.OnlyDigestPutsAValueOnDout : Prop :=
  ∀ s t : State, s.rst = false → step s = .next t →
    ((∃ cw rest, s.cmdq = cw :: rest ∧ decode cw = .instr .digest) → ∃ d, t.doutq = s.doutq ++ [d]) ∧
    ((¬ ∃ cw rest, s.cmdq = cw :: rest ∧ decode cw = .instr .digest) → t.doutq = s.doutq)

/-- Only RESET and hardware reset change the seed (70_reset_and_hazards.md section 3). -/
def Obligations.OnlyResetChangesTheSeed : Prop :=
  ∀ s t : State, s.rst = false →
    (¬ ∃ cw rest sd, s.cmdq = cw :: rest ∧ decode cw = .instr (.reset sd)) →
    step s = .next t → t.seed = s.seed

/-! ### RESET -/

/-- RESET completes in every state, writes its seven elements, and leaves the buffer, the channels but for its own word,
and the rest as they were (41_reset.md R160, R162). -/
def Obligations.ResetWritesItsSevenElements : Prop :=
  ∀ (s : State) (sd : Word),
    ∃ t, exec (.reset sd) s = .next t ∧
      t.seed = sd ∧
      t.lanes.v1 = sd + 0x9E3779B185EBCA87#64 + 0xC2B2AE3D27D4EB4F#64 ∧
      t.lanes.v2 = sd + 0xC2B2AE3D27D4EB4F#64 ∧
      t.lanes.v3 = sd ∧
      t.lanes.v4 = sd - 0x9E3779B185EBCA87#64 ∧
      t.totalLen = 0#64 ∧ t.bufferLen = 0#5 ∧
      (∀ a, t.bufByte a = s.bufByte a) ∧ t.buffer = s.buffer ∧ t.bufDraw = s.bufDraw ∧
      t.cmdq = s.cmdq.tail ∧ t.dinq = s.dinq ∧ t.doutq = s.doutq ∧ t.rst = s.rst

/-- After RESET with the same seed no later digest can tell what came before (41_reset.md R163, read from R160). -/
def Obligations.ResetForgetsTheStream : Prop :=
  ∀ (s t s' t' : State) (sd : Word),
    exec (.reset sd) s = .next s' → exec (.reset sd) t = .next t' → SameStream s' t' ∧ StreamState s' sd []

/-! ### UPDATE -/

/-- An UPDATE whose payload is not all on `din` changes nothing and takes no byte; as the oldest command it keeps every
later one from beginning (60_exceptions.md section 1). That waiting is a next state equal to the state before is the
model's form of it (log entry 1). -/
def Obligations.UpdateWaitsForItsPayload : Prop :=
  ∀ (s : State) (len : Nat), s.dinq.length < len →
    exec (.update len) s = .next s ∧
    ∀ (cw : CmdWord) (rest : List CmdWord), s.rst = false → s.cmdq = cw :: rest → decode cw = .instr (.update len) →
      ∀ k, Host.Core.run Sys2Proof.core k s = .next s

/-- UPDATE completes in every state that has its payload on `din`: it counts the bytes modulo 2^64 on every path
(42_update.md R171), takes exactly its `len` bytes, and leaves the seed, the digests and the rest as they were. -/
def Obligations.UpdateCompletesAndCounts : Prop :=
  ∀ (s : State) (len : Nat), len ≤ s.dinq.length →
    ∃ t, exec (.update len) s = .next t ∧
      t.totalLen.toNat = (s.totalLen.toNat + len) % 2 ^ 64 ∧
      t.dinq = s.dinq.drop len ∧ t.cmdq = s.cmdq.tail ∧
      t.seed = s.seed ∧ t.doutq = s.doutq ∧ t.rst = s.rst ∧ t.bufDraw = s.bufDraw

/-- Phase U2 (42_update.md R172): a payload that does not fill the buffer is appended at offset `buffer_len`, the bytes
below and above keep their values, and no lane changes. -/
def Obligations.UpdateAppendsAShortPayload : Prop :=
  ∀ (s : State) (len : Nat), len ≤ s.dinq.length → s.bufferLen.toNat + len < 32 →
    ∃ t, exec (.update len) s = .next t ∧
      t.lanes = s.lanes ∧ t.seed = s.seed ∧
      t.bufferLen.toNat = s.bufferLen.toNat + len ∧
      (∀ i, i < len → s.dinq[i]? = some (t.bufByte (s.bufferLen.toNat + i))) ∧
      (∀ a, a < s.bufferLen.toNat ∨ s.bufferLen.toNat + len ≤ a → t.bufByte a = s.bufByte a) ∧
      t.dinq = s.dinq.drop len ∧ t.cmdq = s.cmdq.tail ∧ t.doutq = s.doutq ∧ t.rst = s.rst ∧ t.bufDraw = s.bufDraw

/-- Phases U3 to U5 (42_update.md R173, R174, R175), on a buffer that holds bytes and on an empty one. The carried bytes
and the first `k = 32 - buffer_len` payload bytes are one stripe (an empty buffer is never eaten, and `k = 0`); the whole
stripes after them are eaten in order, each from the lanes the one before left; the remainder goes to offset 0. Above it
the buffer keeps what it held, with the bytes that phase U3 put there. -/
def Obligations.UpdateEatsStripesAndStashesTheRest : Prop :=
  ∀ (s : State) (len k : Nat), len ≤ s.dinq.length → 32 ≤ s.bufferLen.toNat + len →
    k = (if 0 < s.bufferLen.toNat then 32 - s.bufferLen.toNat else 0) →
    ∃ t, exec (.update len) s = .next t ∧
      (0 < s.bufferLen.toNat →
        t.lanes = eatAll (stripeEat s.lanes (s.validBuf ++ s.dinq.take k)) ((s.dinq.take len).drop k)) ∧
      (s.bufferLen.toNat = 0 → t.lanes = eatAll s.lanes (s.dinq.take len)) ∧
      t.bufferLen.toNat = (len - k) % 32 ∧
      (∀ a, a < t.bufferLen.toNat → s.dinq[len - t.bufferLen.toNat + a]? = some (t.bufByte a)) ∧
      (∀ a, t.bufferLen.toNat ≤ a → 0 < s.bufferLen.toNat → s.bufferLen.toNat ≤ a → a < 32 →
        s.dinq[a - s.bufferLen.toNat]? = some (t.bufByte a)) ∧
      (∀ a, t.bufferLen.toNat ≤ a → s.bufferLen.toNat = 0 ∨ a < s.bufferLen.toNat ∨ 32 ≤ a →
        t.bufByte a = s.bufByte a) ∧
      t.seed = s.seed ∧ t.dinq = s.dinq.drop len ∧ t.cmdq = s.cmdq.tail ∧ t.doutq = s.doutq ∧ t.rst = s.rst ∧
      t.bufDraw = s.bufDraw

/-- On every path the stripes eaten are the whole 32-byte blocks of the valid bytes followed by the payload, and the bytes
after them are the new valid bytes (42_update.md section 2). -/
def Obligations.UpdateNetEffectIsStripesAndTail : Prop :=
  ∀ (s : State) (len : Nat), len ≤ s.dinq.length →
    ∃ t, exec (.update len) s = .next t ∧
      t.lanes = eatAll s.lanes (s.validBuf ++ s.dinq.take len) ∧
      t.validBuf = tailOf (s.validBuf ++ s.dinq.take len)

/-- A zero-length UPDATE is legal and changes nothing but that it is complete (42_update.md section 2). -/
def Obligations.ZeroLengthUpdateChangesNothing : Prop :=
  ∀ s : State, exec (.update 0) s = .next { s with cmdq := s.cmdq.tail }

/-- UPDATE of one byte is the single-byte step, in every element of the state, stale buffer bytes included
(42_update.md section 2). -/
def Obligations.OneByteUpdateIsTheSingleByteStep : Prop :=
  ∀ (s : State) (x : Byte) (rest : List Byte), s.dinq = x :: rest →
    exec (.update 1) s = .next { s.update1 x with dinq := rest, cmdq := s.cmdq.tail }

/-- UPDATE of a payload leaves what that many single-byte steps leave, up to stale buffer bytes
(42_update.md section 2). -/
def Obligations.UpdateIsRepeatedSingleByteSteps : Prop :=
  ∀ (s : State) (len : Nat), len ≤ s.dinq.length →
    ∃ t, exec (.update len) s = .next t ∧ SameStream t ((s.dinq.take len).foldl State.update1 s)

/-! ### DIGEST -/

/-- DIGEST completes in every state and emits the running hash: the short start or the merged lanes, plus the counter,
folded over the valid bytes in classes of 8, 4 and 1, through the avalanche. It writes nothing else
(43_digest.md R200). -/
def Obligations.DigestEmitsTheRunningHash : Prop :=
  ∀ s : State,
    exec .digest s = .next
      { s with
        doutq := s.doutq ++
          [avalanche (tailFold
            ((if s.totalLen.toNat < 32 then s.seed + 0x27D4EB2F165667C5#64 else laneMerge s.lanes) + s.totalLen)
            s.validBuf)]
        cmdq := s.cmdq.tail }

/-- A DIGEST right after RESET, or after RESET and an UPDATE of no bytes, emits `avalanche(seed + P5 + 0)`, which is
`XXH64(s, [])` (44_compositions_and_laws.md R239). -/
def Obligations.DigestOfTheEmptyInput : Prop :=
  ∀ (s : State) (sd : Word),
    (∃ t u, exec (.reset sd) s = .next t ∧ exec .digest t = .next u ∧
      u.doutq = s.doutq ++ [avalanche (sd + 0x27D4EB2F165667C5#64 + 0)]) ∧
    (∃ t u v, exec (.reset sd) s = .next t ∧ exec (.update 0) t = .next u ∧ exec .digest u = .next v ∧
      v.doutq = s.doutq ++ [avalanche (sd + 0x27D4EB2F165667C5#64 + 0)]) ∧
    xxh64 sd [] = avalanche (sd + 0x27D4EB2F165667C5#64) ∧ xxh64 0 [] = 0xEF46DB3751D8E999#64

/-- Two DIGESTs, one after the other, emit the same value (43_digest.md section 1, purity). -/
def Obligations.DigestIsRepeatable : Prop :=
  ∀ s t u : State, exec .digest s = .next t → exec .digest t = .next u →
    ∃ d, t.doutq = s.doutq ++ [d] ∧ u.doutq = s.doutq ++ [d, d]

/-- On the short start the lanes are not read, whatever was eaten before the counter wrapped; on the merge path the seed
register is not read: DIGEST appends the same value whatever they hold (43_digest.md sections 1 and 3). -/
def Obligations.DigestReadsLanesOrSeedNotBoth : Prop :=
  ∀ (s : State) (l : Lanes) (sd : Word),
    ∃ (d : Word) (t : State), exec .digest s = .next t ∧ t.doutq = s.doutq ++ [d] ∧
      (s.totalLen.toNat < 32 →
        ∃ u, exec .digest { s with lanes := l } = .next u ∧ u.doutq = s.doutq ++ [d]) ∧
      (32 ≤ s.totalLen.toNat →
        ∃ u, exec .digest { s with seed := sd } = .next u ∧ u.doutq = s.doutq ++ [d])

/-- No stale buffer byte and no draw of `BUF_POWERON` influences a digest (43_digest.md section 3). -/
def Obligations.DigestIgnoresStaleBytes : Prop :=
  ∀ s t : State, SameStream s t →
    ∃ d, exec .digest s = .next { s with doutq := s.doutq ++ [d], cmdq := s.cmdq.tail } ∧
      exec .digest t = .next { t with doutq := t.doutq ++ [d], cmdq := t.cmdq.tail }

/-! ### Whole-machine rules -/

/-- Every step keeps the invariant: the buffer's canonical form inside its 32 bytes, `buffer_len` equal to `total_len`
modulo 32, and every valid byte written (10_state.md section 3; 20_memory.md section 4). The form of the buffer's data is
the model's (log entry 3). -/
def Obligations.StepKeepsTheInvariant : Prop :=
  ∀ s t : State, s.Inv → step s = .next t → t.Inv

/-- The state after hardware reset meets the invariant (10_state.md sections 3 and 7). The form of the buffer's data in it
is the model's (log entry 3). -/
def Obligations.ResetStateMeetsTheInvariant : Prop := State.reset.Inv

/-- The state after hardware reset is the empty stream under the default seed (10_state.md section 3). -/
def Obligations.ResetStateIsTheEmptyStream : Prop := StreamState State.reset 0xFFFFFFFFFFFFFFC5#64 []

/-- From the view of a stream, a step with `rst` leads to the empty stream under the default seed; otherwise RESET leads to
the empty stream under its operand, UPDATE to the stream with its own payload at the end, DIGEST to the same stream, and
an idle core and an UPDATE that waits stay in it (10_state.md section 3; 44_compositions_and_laws.md section 3). That a
field tells the step of an `rst` within it, and that idling and waiting are steps, are the model's (log entries 4 and 1). -/
def Obligations.StepKeepsTheStreamView : Prop :=
  ∀ (s t : State) (sd : Word) (m : List Byte), StreamState s sd m → step s = .next t →
    (s.rst = true → StreamState t 0xFFFFFFFFFFFFFFC5#64 []) ∧
    (s.rst = false → s.cmdq = [] → StreamState t sd m) ∧
    (∀ (cw : CmdWord) (rest : List CmdWord), s.rst = false → s.cmdq = cw :: rest →
      (∀ sd', decode cw = .instr (.reset sd') → StreamState t sd' []) ∧
      (∀ len, decode cw = .instr (.update len) → len ≤ s.dinq.length →
        StreamState t sd (m ++ s.dinq.take len)) ∧
      (∀ len, decode cw = .instr (.update len) → s.dinq.length < len → StreamState t sd m) ∧
      (decode cw = .instr .digest → StreamState t sd m))

/-- UPDATE appends its payload to the stream the state stands for (44_compositions_and_laws.md section 3). -/
def Obligations.UpdateExtendsTheStream : Prop :=
  ∀ (s : State) (sd : Word) (m : List Byte) (len : Nat), StreamState s sd m → len ≤ s.dinq.length →
    ∃ t, exec (.update len) s = .next t ∧ StreamState t sd (m ++ s.dinq.take len)

/-- DIGEST emits `XXH64(s, m)` of the stream the state stands for, of any length, and keeps the stream
(44_compositions_and_laws.md section 2). -/
def Obligations.DigestOfAStreamIsXxh64 : Prop :=
  ∀ (s : State) (sd : Word) (m : List Byte), StreamState s sd m →
    ∃ t, exec .digest s = .next t ∧ t.doutq = s.doutq ++ [xxh64 sd m] ∧ StreamState t sd m

/-- Any sequence of commands, with DIGESTs anywhere in it, runs to its end and returns, in order, `XXH64` of the payloads
since the last RESET before each DIGEST (44_compositions_and_laws.md section 2). That all of it is issued at once rests on
channels without a capacity, which are the model's (log entry 13). -/
def Obligations.CommandSequencesReturnXxh64Digests : Prop :=
  ∀ (s : State) (sd : Word) (m : List Byte) (cs : List Command),
    StreamState s sd m → s.rst = false → s.cmdq = [] → s.dinq = [] → (∀ c ∈ cs, c.instr.wf = true) →
    ∃ t : State, Host.Core.run Sys2Proof.core cs.length (s.issue cs) = .next t ∧
      t.doutq = s.doutq ++ digestsOf sd m cs ∧ t.cmdq = [] ∧ t.dinq = []

/-- Chunking invariance (44_compositions_and_laws.md section 3): feeding the pieces of any partition in order and then calling
DIGEST yields the value of ONESHOT of the whole. That all of it is issued at once rests on channels without a capacity,
which are the model's (log entry 13); a message of 2^64 bytes or more has no ONESHOT, since no word holds its length. -/
def Obligations.ChunkingDoesNotChangeTheDigest : Prop :=
  ∀ (s : State) (sd : Word) (pieces : List (List Byte)),
    s.rst = false → s.cmdq = [] → s.dinq = [] → pieces.flatten.length < 2 ^ 64 →
    ∃ (d : Word) (t u : State),
      Host.Core.run Sys2Proof.core (pieces.length + 2)
        (s.issue (.reset sd :: (pieces.map Command.update ++ [.digest]))) = .next t ∧
      t.doutq = s.doutq ++ [d] ∧
      Host.Core.run Sys2Proof.core 3 (s.issue (Listing.oneshot pieces.flatten sd).expand) = .next u ∧
      u.doutq = s.doutq ++ [d]

/-- Two states that differ in hidden state only take steps to states that differ in hidden state only, so they never
return different digests: no digest depends on `BUF_POWERON` (10_state.md section 5; 92_eei_decisions.md section 2). -/
def Obligations.HiddenStateIsNeverObserved : Prop :=
  ∀ s t : State, SameView s t →
    (∀ s', step s = .next s' → ∃ t', step t = .next t' ∧ SameView s' t') ∧
    (∀ r, step s = .refused r → step t = .refused r)

/-- The width of a data-channel transfer has no effect: beats of any positive width put the same bytes on `din` in the
same order and change nothing else (00_scope.md section 4; 30_encoding.md section 1). That the last beat is shorter where
the width does not divide the length, and that `din` takes any number of bytes, are the model's (log entries 14 and
13). -/
def Obligations.BeatWidthDoesNotMatter : Prop :=
  ∀ (s : State) (width : Nat) (bytes : List Byte), 0 < width →
    s.hostPayloadIn width bytes = { s with dinq := s.dinq ++ bytes }

/-! ### The mixing functions -/

/-- `rotl64` in its two forms, and where each bit goes (40_arithmetic_and_mixing.md section 1). The formulas are the usual
meaning of a left rotation, which the spec marks as general knowledge and not its source's (log entry 17). -/
def Obligations.RotateLeftMovesBits : Prop :=
  ∀ (x : Word) (r : Nat), 1 ≤ r → r ≤ 63 →
    (rotl64 x r).toNat = x.toNat * 2 ^ r % 2 ^ 64 + x.toNat / 2 ^ (64 - r) ∧
    (rotl64 x r).toNat = x.toNat * 2 ^ r % 2 ^ 64 ||| x.toNat / 2 ^ (64 - r) ∧
    ∀ i, i < 64 → (rotl64 x r).getLsbD ((i + r) % 64) = x.getLsbD i

/-- `le64` and `le32` are the little-endian sums (20_memory.md section 2). The sums are the usual meaning of the term, which
the spec marks as general knowledge and not its source's (log entry 17). -/
def Obligations.MultiByteReadsAreLittleEndian : Prop :=
  ∀ b0 b1 b2 b3 b4 b5 b6 b7 : Byte,
    (le64 [b0, b1, b2, b3, b4, b5, b6, b7]).toNat =
      b0.toNat + b1.toNat * 2 ^ 8 + b2.toNat * 2 ^ 16 + b3.toNat * 2 ^ 24 + b4.toNat * 2 ^ 32 + b5.toNat * 2 ^ 40 +
        b6.toNat * 2 ^ 48 + b7.toNat * 2 ^ 56 ∧
    (le32 [b0, b1, b2, b3]).toNat = b0.toNat + b1.toNat * 2 ^ 8 + b2.toNat * 2 ^ 16 + b3.toNat * 2 ^ 24

/-- In a stripe-eat each lane is ROUND of its own prior value and its own word: 8 bytes of the stripe, the first word to
`v1`, and so on (40_arithmetic_and_mixing.md sections 3; 20_memory.md section 2). -/
def Obligations.LanesEatTheirOwnWords : Prop :=
  ∀ (l : Lanes) (w1 w2 w3 w4 : List Byte), w1.length = 8 → w2.length = 8 → w3.length = 8 → w4.length = 8 →
    stripeEat l (w1 ++ w2 ++ w3 ++ w4) =
      ⟨round l.v1 (le64 w1), round l.v2 (le64 w2), round l.v3 (le64 w3), round l.v4 (le64 w4)⟩

/-- `AVALANCHE` is a bijection with the inverse that 40_arithmetic_and_mixing.md section 6 gives. -/
def Obligations.AvalancheIsInvertible : Prop :=
  ∀ h : Word, avalancheInv (avalanche h) = h ∧ avalanche (avalancheInv h) = h

/-- ROUND, the merge round and the tail steps are injective in the accumulator (40_arithmetic_and_mixing.md section 6) and
in the word they take in (44_compositions_and_laws.md section 3). -/
def Obligations.MixingStepsAreInjective : Prop :=
  (∀ a b w : Word, round a w = round b w → a = b) ∧
  (∀ a v w : Word, round a v = round a w → v = w) ∧
  (∀ g h v : Word, mergeRound g v = mergeRound h v → g = h) ∧
  (∀ h v w : Word, mergeRound h v = mergeRound h w → v = w) ∧
  (∀ g h k : Word, tail8 g k = tail8 h k → g = h) ∧
  (∀ h k l : Word, tail8 h k = tail8 h l → k = l) ∧
  (∀ (g h : Word) (k : Word32), tail4 g k = tail4 h k → g = h) ∧
  (∀ (h : Word) (k l : Word32), tail4 h k = tail4 h l → k = l) ∧
  (∀ (g h : Word) (b : Byte), tail1 g b = tail1 h b → g = h) ∧
  (∀ (h : Word) (b c : Byte), tail1 h b = tail1 h c → b = c)

/-- For a message of fewer than 32 bytes any two different seeds give different digests
(44_compositions_and_laws.md section 3). -/
def Obligations.ShortMessagesSeparateAllSeeds : Prop :=
  ∀ (m : List Byte) (s1 s2 : Word), m.length < 32 → s1 ≠ s2 → xxh64 s1 m ≠ xxh64 s2 m

/-- Changing one tail word always changes the digest (44_compositions_and_laws.md section 3): an 8-byte word of the tail,
which begins at a multiple of 8 bytes after the whole stripes; its 4-byte word, which begins at one with fewer than 8
bytes left; or any of the single bytes after them, of which there are as many as the length leaves modulo 4. -/
def Obligations.ChangingOneTailWordAlwaysShows : Prop :=
  ∀ (sd : Word) (before w w' rest : List Byte), w.length = w'.length → w ≠ w' →
    (w.length = 8 ∧ before.length % 8 = 0 ∧ 32 * ((before ++ w ++ rest).length / 32) ≤ before.length ∨
      w.length = 4 ∧ before.length % 8 = 0 ∧ rest.length < 4 ∨
      w.length = 1 ∧ rest.length < (before ++ w ++ rest).length % 4) →
    xxh64 sd (before ++ w ++ rest) ≠ xxh64 sd (before ++ w' ++ rest)

/-! ### The host's inputs -/

/-- What the host can do to the core but for `rst`: add a command word, add bytes, take the oldest digest; each changes its
own channel and nothing else of the whole state (70_reset_and_hazards.md section 5; 10_state.md section 4). That a word or a
byte can always be added, and that the last beat of a payload may be shorter than the others, are the model's (log entries
13 and 14). -/
def Obligations.HostInputsKeepTheHasherState : Prop :=
  ∀ (s : State) (cw : CmdWord) (bytes : List Byte),
    s.hostCommand cw = { s with cmdq := s.cmdq ++ [cw] } ∧
    s.hostPayload bytes = { s with dinq := s.dinq ++ bytes } ∧
    (s.doutq = [] → s.hostTakeDigest = (none, s)) ∧
    ∀ d ds, s.doutq = d :: ds → s.hostTakeDigest = (some d, { s with doutq := ds })

/-! ### The formulas and the reference vectors -/

/-- ROUND, LANE_SUM, MERGE_ROUND, LANE_MERGE in the order `v1, v2, v3, v4`, TAIL8, TAIL4 on the zero-extended word without
ROUND, TAIL1 on the zero-extended byte, and AVALANCHE, with their constants and amounts written out
(40_arithmetic_and_mixing.md R137, R140, R143, R144, R145, R146, R147, R148, R149). -/
def Obligations.MixingFunctionsFollowTheirFormulas : Prop :=
  (∀ acc w : Word, round acc w = rotl64 (acc + w * 0xC2B2AE3D27D4EB4F#64) 31 * 0x9E3779B185EBCA87#64) ∧
  (∀ l : Lanes, laneSum l = rotl64 l.v1 1 + rotl64 l.v2 7 + rotl64 l.v3 12 + rotl64 l.v4 18) ∧
  (∀ h v : Word, mergeRound h v =
    (h ^^^ rotl64 (v * 0xC2B2AE3D27D4EB4F#64) 31 * 0x9E3779B185EBCA87#64) * 0x9E3779B185EBCA87#64 +
      0x85EBCA77C2B2AE63#64) ∧
  (∀ l : Lanes, laneMerge l = mergeRound (mergeRound (mergeRound (mergeRound (laneSum l) l.v1) l.v2) l.v3) l.v4) ∧
  (∀ h k : Word, tail8 h k =
    rotl64 (h ^^^ rotl64 (k * 0xC2B2AE3D27D4EB4F#64) 31 * 0x9E3779B185EBCA87#64) 27 * 0x9E3779B185EBCA87#64 +
      0x85EBCA77C2B2AE63#64) ∧
  (∀ (h : Word) (k : Word32), tail4 h k =
    rotl64 (h ^^^ BitVec.ofNat 64 k.toNat * 0x9E3779B185EBCA87#64) 23 * 0xC2B2AE3D27D4EB4F#64 +
      0x165667B19E3779F9#64) ∧
  (∀ (h : Word) (b : Byte), tail1 h b =
    rotl64 (h ^^^ BitVec.ofNat 64 b.toNat * 0x27D4EB2F165667C5#64) 11 * 0x9E3779B185EBCA87#64) ∧
  (∀ h h1 h2 h3 h4 : Word, h1 = h ^^^ (h >>> 33) → h2 = h1 * 0xC2B2AE3D27D4EB4F#64 → h3 = h2 ^^^ (h2 >>> 29) →
    h4 = h3 * 0x165667B19E3779F9#64 → avalanche h = h4 ^^^ (h4 >>> 32))

/-- The six reference vectors (95_test_vectors.md section 1; 44_compositions_and_laws.md section 3), as values of `XXH64`
and on the machine, hashed as one call and in UPDATEs of 15 bytes. That all commands of a run are issued at once rests on
channels without a capacity, which are the model's (log entry 13). -/
def Obligations.ReferenceVectorsHold : Prop :=
  ∀ row ∈ [(1, 0#64, 0x4FCE394CC88952D8#64), (1, 2654435761#64, 0x739840CB819FA723#64),
      (14, 0#64, 0xCFFA8DB881BC3A3D#64), (14, 2654435761#64, 0x5B9611585EFCC9CB#64),
      (101, 0#64, 0x0EAB543384F878AD#64), (101, 2654435761#64, 0xCAA65939306F1E21#64)],
    xxh64 row.2.1 (testBuffer row.1) = row.2.2 ∧
    ∀ s : State, s.rst = false → s.cmdq = [] → s.dinq = [] →
      (∃ t : State, Host.Core.run Sys2Proof.core 3 (s.issue (Listing.oneshot (testBuffer row.1) row.2.1).expand) =
          .next t ∧ t.doutq = s.doutq ++ [row.2.2]) ∧
      ∃ t : State, Host.Core.run Sys2Proof.core ((piecesOf 15 (testBuffer row.1)).length + 2)
          (s.issue (.reset row.2.1 :: ((piecesOf 15 (testBuffer row.1)).map Command.update ++ [.digest]))) =
          .next t ∧ t.doutq = s.doutq ++ [row.2.2]

/-! ### Hardware reset between two steps -/

/-- Hardware reset between two steps is immediate: right after it the core is the empty stream under the default seed, no
queued command, byte or digest is left to take, and what the host sends after it stays and is acted on: a DIGEST as the
first command returns `0x487D0FF80433C535` (70_reset_and_hazards.md sections 1 and 5). That a word or a byte can always be
added, and the shorter last beat of a payload, are the model's (log entries 13 and 14). -/
def Obligations.HardwareResetIsImmediate : Prop :=
  ∀ (s : State) (cw : CmdWord) (bytes : List Byte),
    StreamState s.hostReset 0xFFFFFFFFFFFFFFC5#64 [] ∧
    s.hostReset.cmdq = [] ∧ s.hostReset.dinq = [] ∧ s.hostReset.hostTakeDigest = (none, s.hostReset) ∧
    (s.hostReset.hostCommand cw).cmdq = [cw] ∧ (s.hostReset.hostPayload bytes).dinq = bytes ∧
    (decode cw = .instr .digest →
      ∃ t, step (s.hostReset.hostCommand cw) = .next t ∧ t.doutq = [0x487D0FF80433C535#64] ∧ t.cmdq = [])
end

