-- ==== Sys2Proof/Laws/Memory.lean ====
section
/-! SUPPORT. The buffer as data: a read after a write, the canonical form, and equal readings are equal memories. -/

namespace Sys2Proof.Machine

theorem Memory.read_write (m : Memory) (a c : Nat) (b : Byte) :
    (m.write a b).read c = if c = a then some b else m.read c := by
  induction m with
  | nil => simp [Memory.write, Memory.read]
  | cons p m ih =>
    obtain ⟨k, x⟩ := p
    simp only [Memory.write]
    split
    · simp [Memory.read]
    · split
      · subst_vars; by_cases h : c = k <;> simp [Memory.read, h]
      · by_cases h : c = k
        · subst h; simp [Memory.read]; omega
        · simp [Memory.read, h, ih]

@[simp] theorem Memory.read_write_same (m : Memory) (a : Nat) (b : Byte) : (m.write a b).read a = some b := by
  simp [Memory.read_write]

theorem Memory.read_write_other (m : Memory) {a c : Nat} (b : Byte) (h : c ≠ a) :
    (m.write a b).read c = m.read c := by
  simp [Memory.read_write, h]

/-- Everything a run of byte writes does to a read. -/
theorem Memory.read_writeBytes (m : Memory) (a c : Nat) (bs : List Byte) :
    (m.writeBytes a bs).read c = if a ≤ c ∧ c < a + bs.length then bs[c - a]? else m.read c := by
  induction bs generalizing m a with
  | nil =>
    rw [if_neg (by simp only [List.length_nil]; omega)]
    rfl
  | cons b bs ih =>
    simp only [Memory.writeBytes, ih, List.length_cons, Memory.read_write]
    rcases Nat.lt_trichotomy c a with h | h | h
    · rw [if_neg (by omega), if_neg (by omega), if_neg (by omega)]
    · subst h; simp
    · by_cases h2 : c < a + (bs.length + 1)
      · rw [if_pos (by omega), if_pos (by omega)]
        obtain ⟨d, rfl⟩ : ∃ d, c = a + 1 + d := ⟨c - (a + 1), by omega⟩
        rw [show a + 1 + d - (a + 1) = d by omega, show a + 1 + d - a = d + 1 by omega]
        simp
      · rw [if_neg (by omega), if_neg (by omega), if_neg (by omega)]

theorem Memory.mem_write {m : Memory} {a : Nat} {b : Byte} {p : Host.Cell} (h : p ∈ m.write a b) :
    p = (a, b) ∨ p ∈ m := by
  induction m with
  | nil => simpa [Memory.write] using h
  | cons q m ih =>
    obtain ⟨k, x⟩ := q
    simp only [Memory.write] at h
    split at h
    · simpa using h
    · split at h
      · rcases List.mem_cons.1 h with h | h
        · exact .inl h
        · exact .inr (List.mem_cons_of_mem _ h)
      · rcases List.mem_cons.1 h with h | h
        · exact .inr (h ▸ List.mem_cons_self)
        · exact (ih h).imp id (List.mem_cons_of_mem _)

/-- A write inside BUF keeps the canonical form. -/
theorem Memory.write_wf {m : Memory} (hm : m.wf) {a : Nat} (ha : a < 32) (b : Byte) : (m.write a b).wf := by
  refine ⟨?_, fun p hp => ?_⟩
  · have hs := hm.1
    clear hm
    induction m with
    | nil => simp [Memory.write]
    | cons q m ih =>
      obtain ⟨k, x⟩ := q
      rw [List.pairwise_cons] at hs
      simp only [Memory.write]
      split
      · rename_i hak
        rw [List.pairwise_cons, List.pairwise_cons]
        refine ⟨fun p hp => ?_, hs⟩
        rcases List.mem_cons.1 hp with rfl | hp
        · exact hak
        · exact Nat.lt_trans hak (hs.1 p hp)
      · split
        · subst_vars; exact List.pairwise_cons.2 hs
        · refine List.pairwise_cons.2 ⟨fun p hp => ?_, ih hs.2⟩
          rcases Memory.mem_write hp with rfl | hp
          · show k < a
            omega
          · exact hs.1 p hp
  · rcases Memory.mem_write hp with rfl | hp
    · exact ha
    · exact hm.2 p hp

/-- A run of byte writes inside BUF keeps the canonical form. -/
theorem Memory.writeBytes_wf {m : Memory} (hm : m.wf) {a : Nat} {bs : List Byte} (h : a + bs.length ≤ 32) :
    (m.writeBytes a bs).wf := by
  induction bs generalizing m a with
  | nil => exact hm
  | cons b bs ih =>
    rw [List.length_cons] at h
    exact ih (Memory.write_wf hm (by omega) b) (by omega)

theorem Memory.read_eq_none_of_lt {m : Memory} {a : Nat} (h : ∀ p ∈ m, a < p.1) : m.read a = none := by
  induction m with
  | nil => rfl
  | cons q m ih =>
    have hq := h q List.mem_cons_self
    simp [Memory.read, Nat.ne_of_lt hq, ih (fun p hp => h p (List.mem_cons_of_mem _ hp))]

/-- Two canonical memories with the same readings are the same data. -/
theorem Memory.eq_of_read_eq {m n : Memory} (hm : m.wf) (hn : n.wf) (h : ∀ a, m.read a = n.read a) : m = n := by
  obtain ⟨hm, -⟩ := hm
  obtain ⟨hn, -⟩ := hn
  induction m generalizing n with
  | nil =>
    cases n with
    | nil => rfl
    | cons q n => obtain ⟨k, x⟩ := q; simpa [Memory.read] using h k
  | cons p m ih =>
    obtain ⟨k, x⟩ := p
    cases n with
    | nil => simpa [Memory.read] using h k
    | cons q n =>
      obtain ⟨l, y⟩ := q
      rw [List.pairwise_cons] at hm hn
      have hkl : k = l := by
        rcases Nat.lt_trichotomy k l with hlt | heq | hgt
        · have := h k
          rw [Memory.read_eq_none_of_lt (m := (l, y) :: n) (a := k)] at this
          · simp [Memory.read] at this
          · intro p hp
            rcases List.mem_cons.1 hp with rfl | hp
            · exact hlt
            · exact Nat.lt_trans hlt (hn.1 p hp)
        · exact heq
        · have := h l
          rw [Memory.read_eq_none_of_lt (m := (k, x) :: m) (a := l)] at this
          · simp [Memory.read] at this
          · intro p hp
            rcases List.mem_cons.1 hp with rfl | hp
            · exact hgt
            · exact Nat.lt_trans hgt (hm.1 p hp)
      subst hkl
      have hxy : x = y := by simpa [Memory.read] using h k
      subst hxy
      rw [ih (fun a => ?_) hm.2 hn.2]
      by_cases ha : a = k
      · subst ha
        rw [Memory.read_eq_none_of_lt hm.1, Memory.read_eq_none_of_lt hn.1]
      · simpa [Memory.read, ha] using h a

end Sys2Proof.Machine
end

