-- ==== Sys2Proof/Laws/State.lean ====
section
/-! SUPPORT. One lemma per field per state operation, so that no later proof unfolds a record update. -/

namespace Sys2Proof.Machine

variable (s : State)

@[simp] theorem State.waits_eq : s.waits = s := rfl

@[simp] theorem State.idle_eq : s.idle = s := rfl

@[simp] theorem State.hostReset_eq : s.hostReset = s.hardwareReset := rfl

/-! ### `State.memWriteBuf` -/

@[simp] theorem State.memWriteBuf_lanes (a : Nat) (bs : List Byte) : (s.memWriteBuf a bs).lanes = s.lanes := by cases s; rfl

@[simp] theorem State.memWriteBuf_seed (a : Nat) (bs : List Byte) : (s.memWriteBuf a bs).seed = s.seed := by cases s; rfl

@[simp] theorem State.memWriteBuf_buffer (a : Nat) (bs : List Byte) : (s.memWriteBuf a bs).buffer = s.buffer.writeBytes a bs := by cases s; rfl

@[simp] theorem State.memWriteBuf_bufferLen (a : Nat) (bs : List Byte) : (s.memWriteBuf a bs).bufferLen = s.bufferLen := by cases s; rfl

@[simp] theorem State.memWriteBuf_totalLen (a : Nat) (bs : List Byte) : (s.memWriteBuf a bs).totalLen = s.totalLen := by cases s; rfl

@[simp] theorem State.memWriteBuf_cmdq (a : Nat) (bs : List Byte) : (s.memWriteBuf a bs).cmdq = s.cmdq := by cases s; rfl

@[simp] theorem State.memWriteBuf_dinq (a : Nat) (bs : List Byte) : (s.memWriteBuf a bs).dinq = s.dinq := by cases s; rfl

@[simp] theorem State.memWriteBuf_doutq (a : Nat) (bs : List Byte) : (s.memWriteBuf a bs).doutq = s.doutq := by cases s; rfl

@[simp] theorem State.memWriteBuf_rst (a : Nat) (bs : List Byte) : (s.memWriteBuf a bs).rst = s.rst := by cases s; rfl

@[simp] theorem State.memWriteBuf_bufDraw (a : Nat) (bs : List Byte) : (s.memWriteBuf a bs).bufDraw = s.bufDraw := by cases s; rfl

/-! ### `State.consumePayload` -/

@[simp] theorem State.consumePayload_lanes (len : Nat) : (s.consumePayload len).lanes = s.lanes := by cases s; rfl

@[simp] theorem State.consumePayload_seed (len : Nat) : (s.consumePayload len).seed = s.seed := by cases s; rfl

@[simp] theorem State.consumePayload_buffer (len : Nat) : (s.consumePayload len).buffer = s.buffer := by cases s; rfl

@[simp] theorem State.consumePayload_bufferLen (len : Nat) : (s.consumePayload len).bufferLen = s.bufferLen := by cases s; rfl

@[simp] theorem State.consumePayload_totalLen (len : Nat) : (s.consumePayload len).totalLen = s.totalLen := by cases s; rfl

@[simp] theorem State.consumePayload_cmdq (len : Nat) : (s.consumePayload len).cmdq = s.cmdq := by cases s; rfl

@[simp] theorem State.consumePayload_dinq (len : Nat) : (s.consumePayload len).dinq = s.dinq.drop len := by cases s; rfl

@[simp] theorem State.consumePayload_doutq (len : Nat) : (s.consumePayload len).doutq = s.doutq := by cases s; rfl

@[simp] theorem State.consumePayload_rst (len : Nat) : (s.consumePayload len).rst = s.rst := by cases s; rfl

@[simp] theorem State.consumePayload_bufDraw (len : Nat) : (s.consumePayload len).bufDraw = s.bufDraw := by cases s; rfl

/-! ### `State.emit` -/

@[simp] theorem State.emit_lanes (d : Word) : (s.emit d).lanes = s.lanes := by cases s; rfl

@[simp] theorem State.emit_seed (d : Word) : (s.emit d).seed = s.seed := by cases s; rfl

@[simp] theorem State.emit_buffer (d : Word) : (s.emit d).buffer = s.buffer := by cases s; rfl

@[simp] theorem State.emit_bufferLen (d : Word) : (s.emit d).bufferLen = s.bufferLen := by cases s; rfl

@[simp] theorem State.emit_totalLen (d : Word) : (s.emit d).totalLen = s.totalLen := by cases s; rfl

@[simp] theorem State.emit_cmdq (d : Word) : (s.emit d).cmdq = s.cmdq := by cases s; rfl

@[simp] theorem State.emit_dinq (d : Word) : (s.emit d).dinq = s.dinq := by cases s; rfl

@[simp] theorem State.emit_doutq (d : Word) : (s.emit d).doutq = s.doutq ++ [d] := by cases s; rfl

@[simp] theorem State.emit_rst (d : Word) : (s.emit d).rst = s.rst := by cases s; rfl

@[simp] theorem State.emit_bufDraw (d : Word) : (s.emit d).bufDraw = s.bufDraw := by cases s; rfl

/-! ### `State.retire` -/

@[simp] theorem State.retire_lanes : (s.retire).lanes = s.lanes := by cases s; rfl

@[simp] theorem State.retire_seed : (s.retire).seed = s.seed := by cases s; rfl

@[simp] theorem State.retire_buffer : (s.retire).buffer = s.buffer := by cases s; rfl

@[simp] theorem State.retire_bufferLen : (s.retire).bufferLen = s.bufferLen := by cases s; rfl

@[simp] theorem State.retire_totalLen : (s.retire).totalLen = s.totalLen := by cases s; rfl

@[simp] theorem State.retire_cmdq : (s.retire).cmdq = s.cmdq.tail := by cases s; rfl

@[simp] theorem State.retire_dinq : (s.retire).dinq = s.dinq := by cases s; rfl

@[simp] theorem State.retire_doutq : (s.retire).doutq = s.doutq := by cases s; rfl

@[simp] theorem State.retire_rst : (s.retire).rst = s.rst := by cases s; rfl

@[simp] theorem State.retire_bufDraw : (s.retire).bufDraw = s.bufDraw := by cases s; rfl

/-! ### `State.startStream` -/

@[simp] theorem State.startStream_lanes (sd : Word) : (s.startStream sd).lanes = lanesOfSeed sd := by cases s; rfl

@[simp] theorem State.startStream_seed (sd : Word) : (s.startStream sd).seed = sd := by cases s; rfl

@[simp] theorem State.startStream_buffer (sd : Word) : (s.startStream sd).buffer = s.buffer := by cases s; rfl

@[simp] theorem State.startStream_bufferLen (sd : Word) : (s.startStream sd).bufferLen = 0#5 := by cases s; rfl

@[simp] theorem State.startStream_totalLen (sd : Word) : (s.startStream sd).totalLen = 0#64 := by cases s; rfl

@[simp] theorem State.startStream_cmdq (sd : Word) : (s.startStream sd).cmdq = s.cmdq := by cases s; rfl

@[simp] theorem State.startStream_dinq (sd : Word) : (s.startStream sd).dinq = s.dinq := by cases s; rfl

@[simp] theorem State.startStream_doutq (sd : Word) : (s.startStream sd).doutq = s.doutq := by cases s; rfl

@[simp] theorem State.startStream_rst (sd : Word) : (s.startStream sd).rst = s.rst := by cases s; rfl

@[simp] theorem State.startStream_bufDraw (sd : Word) : (s.startStream sd).bufDraw = s.bufDraw := by cases s; rfl

/-! ### `State.loadWord` -/

@[simp] theorem State.loadWord_lanes (cw : CmdWord) : (s.loadWord cw).lanes = s.lanes := by cases s; rfl

@[simp] theorem State.loadWord_seed (cw : CmdWord) : (s.loadWord cw).seed = s.seed := by cases s; rfl

@[simp] theorem State.loadWord_buffer (cw : CmdWord) : (s.loadWord cw).buffer = s.buffer := by cases s; rfl

@[simp] theorem State.loadWord_bufferLen (cw : CmdWord) : (s.loadWord cw).bufferLen = s.bufferLen := by cases s; rfl

@[simp] theorem State.loadWord_totalLen (cw : CmdWord) : (s.loadWord cw).totalLen = s.totalLen := by cases s; rfl

@[simp] theorem State.loadWord_cmdq (cw : CmdWord) : (s.loadWord cw).cmdq = cw :: s.cmdq := by cases s; rfl

@[simp] theorem State.loadWord_dinq (cw : CmdWord) : (s.loadWord cw).dinq = loadPayload cw ++ s.dinq := by cases s; rfl

@[simp] theorem State.loadWord_doutq (cw : CmdWord) : (s.loadWord cw).doutq = s.doutq := by cases s; rfl

@[simp] theorem State.loadWord_rst (cw : CmdWord) : (s.loadWord cw).rst = false := by cases s; rfl

@[simp] theorem State.loadWord_bufDraw (cw : CmdWord) : (s.loadWord cw).bufDraw = s.bufDraw := by cases s; rfl

/-! ### `State.hardwareReset` -/

@[simp] theorem State.hardwareReset_lanes : (s.hardwareReset).lanes = lanesOfSeed defaultSeed := by cases s; rfl

@[simp] theorem State.hardwareReset_seed : (s.hardwareReset).seed = defaultSeed := by cases s; rfl

@[simp] theorem State.hardwareReset_buffer : (s.hardwareReset).buffer = [] := by cases s; rfl

@[simp] theorem State.hardwareReset_bufferLen : (s.hardwareReset).bufferLen = 0#5 := by cases s; rfl

@[simp] theorem State.hardwareReset_totalLen : (s.hardwareReset).totalLen = 0#64 := by cases s; rfl

@[simp] theorem State.hardwareReset_cmdq : (s.hardwareReset).cmdq = [] := by cases s; rfl

@[simp] theorem State.hardwareReset_dinq : (s.hardwareReset).dinq = [] := by cases s; rfl

@[simp] theorem State.hardwareReset_doutq : (s.hardwareReset).doutq = [] := by cases s; rfl

@[simp] theorem State.hardwareReset_rst : (s.hardwareReset).rst = false := by cases s; rfl

@[simp] theorem State.hardwareReset_bufDraw : (s.hardwareReset).bufDraw = s.bufDraw + 1 := by cases s; rfl

/-! ### `State.hostCommand` -/

@[simp] theorem State.hostCommand_lanes (cw : CmdWord) : (s.hostCommand cw).lanes = s.lanes := by cases s; rfl

@[simp] theorem State.hostCommand_seed (cw : CmdWord) : (s.hostCommand cw).seed = s.seed := by cases s; rfl

@[simp] theorem State.hostCommand_buffer (cw : CmdWord) : (s.hostCommand cw).buffer = s.buffer := by cases s; rfl

@[simp] theorem State.hostCommand_bufferLen (cw : CmdWord) : (s.hostCommand cw).bufferLen = s.bufferLen := by cases s; rfl

@[simp] theorem State.hostCommand_totalLen (cw : CmdWord) : (s.hostCommand cw).totalLen = s.totalLen := by cases s; rfl

@[simp] theorem State.hostCommand_cmdq (cw : CmdWord) : (s.hostCommand cw).cmdq = s.cmdq ++ [cw] := by cases s; rfl

@[simp] theorem State.hostCommand_dinq (cw : CmdWord) : (s.hostCommand cw).dinq = s.dinq := by cases s; rfl

@[simp] theorem State.hostCommand_doutq (cw : CmdWord) : (s.hostCommand cw).doutq = s.doutq := by cases s; rfl

@[simp] theorem State.hostCommand_rst (cw : CmdWord) : (s.hostCommand cw).rst = s.rst := by cases s; rfl

@[simp] theorem State.hostCommand_bufDraw (cw : CmdWord) : (s.hostCommand cw).bufDraw = s.bufDraw := by cases s; rfl

/-! ### `State.hostBeat` -/

@[simp] theorem State.hostBeat_lanes (beat : List Byte) : (s.hostBeat beat).lanes = s.lanes := by cases s; rfl

@[simp] theorem State.hostBeat_seed (beat : List Byte) : (s.hostBeat beat).seed = s.seed := by cases s; rfl

@[simp] theorem State.hostBeat_buffer (beat : List Byte) : (s.hostBeat beat).buffer = s.buffer := by cases s; rfl

@[simp] theorem State.hostBeat_bufferLen (beat : List Byte) : (s.hostBeat beat).bufferLen = s.bufferLen := by cases s; rfl

@[simp] theorem State.hostBeat_totalLen (beat : List Byte) : (s.hostBeat beat).totalLen = s.totalLen := by cases s; rfl

@[simp] theorem State.hostBeat_cmdq (beat : List Byte) : (s.hostBeat beat).cmdq = s.cmdq := by cases s; rfl

@[simp] theorem State.hostBeat_dinq (beat : List Byte) : (s.hostBeat beat).dinq = s.dinq ++ beat := by cases s; rfl

@[simp] theorem State.hostBeat_doutq (beat : List Byte) : (s.hostBeat beat).doutq = s.doutq := by cases s; rfl

@[simp] theorem State.hostBeat_rst (beat : List Byte) : (s.hostBeat beat).rst = s.rst := by cases s; rfl

@[simp] theorem State.hostBeat_bufDraw (beat : List Byte) : (s.hostBeat beat).bufDraw = s.bufDraw := by cases s; rfl

/-! ### `State.hostResetWithinStep` -/

@[simp] theorem State.hostResetWithinStep_lanes : (s.hostResetWithinStep).lanes = s.lanes := by cases s; rfl

@[simp] theorem State.hostResetWithinStep_seed : (s.hostResetWithinStep).seed = s.seed := by cases s; rfl

@[simp] theorem State.hostResetWithinStep_buffer : (s.hostResetWithinStep).buffer = s.buffer := by cases s; rfl

@[simp] theorem State.hostResetWithinStep_bufferLen : (s.hostResetWithinStep).bufferLen = s.bufferLen := by cases s; rfl

@[simp] theorem State.hostResetWithinStep_totalLen : (s.hostResetWithinStep).totalLen = s.totalLen := by cases s; rfl

@[simp] theorem State.hostResetWithinStep_cmdq : (s.hostResetWithinStep).cmdq = s.cmdq := by cases s; rfl

@[simp] theorem State.hostResetWithinStep_dinq : (s.hostResetWithinStep).dinq = s.dinq := by cases s; rfl

@[simp] theorem State.hostResetWithinStep_doutq : (s.hostResetWithinStep).doutq = s.doutq := by cases s; rfl

@[simp] theorem State.hostResetWithinStep_rst : (s.hostResetWithinStep).rst = true := by cases s; rfl

@[simp] theorem State.hostResetWithinStep_bufDraw : (s.hostResetWithinStep).bufDraw = s.bufDraw := by cases s; rfl

/-! ### `updateCount` -/

@[simp] theorem updateCount_lanes (len : Nat) : (updateCount len s).lanes = s.lanes := by cases s; rfl

@[simp] theorem updateCount_seed (len : Nat) : (updateCount len s).seed = s.seed := by cases s; rfl

@[simp] theorem updateCount_buffer (len : Nat) : (updateCount len s).buffer = s.buffer := by cases s; rfl

@[simp] theorem updateCount_bufferLen (len : Nat) : (updateCount len s).bufferLen = s.bufferLen := by cases s; rfl

@[simp] theorem updateCount_totalLen (len : Nat) : (updateCount len s).totalLen = s.totalLen + BitVec.ofNat 64 len := by cases s; rfl

@[simp] theorem updateCount_cmdq (len : Nat) : (updateCount len s).cmdq = s.cmdq := by cases s; rfl

@[simp] theorem updateCount_dinq (len : Nat) : (updateCount len s).dinq = s.dinq := by cases s; rfl

@[simp] theorem updateCount_doutq (len : Nat) : (updateCount len s).doutq = s.doutq := by cases s; rfl

@[simp] theorem updateCount_rst (len : Nat) : (updateCount len s).rst = s.rst := by cases s; rfl

@[simp] theorem updateCount_bufDraw (len : Nat) : (updateCount len s).bufDraw = s.bufDraw := by cases s; rfl

/-! ### `updateAppend` -/

@[simp] theorem updateAppend_lanes (p : List Byte) : (updateAppend p s).lanes = s.lanes := by cases s; rfl

@[simp] theorem updateAppend_seed (p : List Byte) : (updateAppend p s).seed = s.seed := by cases s; rfl

@[simp] theorem updateAppend_buffer (p : List Byte) : (updateAppend p s).buffer = s.buffer.writeBytes s.bufferLen.toNat p := by cases s; rfl

@[simp] theorem updateAppend_bufferLen (p : List Byte) : (updateAppend p s).bufferLen = BitVec.ofNat 5 (s.bufferLen.toNat + p.length) := by cases s; rfl

@[simp] theorem updateAppend_totalLen (p : List Byte) : (updateAppend p s).totalLen = s.totalLen := by cases s; rfl

@[simp] theorem updateAppend_cmdq (p : List Byte) : (updateAppend p s).cmdq = s.cmdq := by cases s; rfl

@[simp] theorem updateAppend_dinq (p : List Byte) : (updateAppend p s).dinq = s.dinq := by cases s; rfl

@[simp] theorem updateAppend_doutq (p : List Byte) : (updateAppend p s).doutq = s.doutq := by cases s; rfl

@[simp] theorem updateAppend_rst (p : List Byte) : (updateAppend p s).rst = s.rst := by cases s; rfl

@[simp] theorem updateAppend_bufDraw (p : List Byte) : (updateAppend p s).bufDraw = s.bufDraw := by cases s; rfl

end Sys2Proof.Machine
end

