-- ==== Sys2Proof/Laws/Buffer.lean ====
section
/-! SUPPORT. What the commands see of the buffer: reads, reads after writes, and reads that agree. -/

namespace Sys2Proof.Machine

/-- A byte of the buffer depends on the buffer's data and the draw alone. -/
theorem State.bufByte_congr {s t : State} (hb : s.buffer = t.buffer) (hd : s.bufDraw = t.bufDraw) (a : Nat) :
    s.bufByte a = t.bufByte a := by
  simp [State.bufByte, hb, hd]

theorem State.bufByte_of_read {s : State} {a : Nat} {b : Byte} (h : s.buffer.read a = some b) :
    s.bufByte a = b := by
  simp [State.bufByte, h]

/-- Everything `memWriteBuf` does to a byte. -/
theorem State.bufByte_memWriteBuf (s : State) (a c : Nat) (bs : List Byte) :
    (s.memWriteBuf a bs).bufByte c =
      if h : a ≤ c ∧ c < a + bs.length then bs[c - a] else s.bufByte c := by
  by_cases h : a ≤ c ∧ c < a + bs.length
  · simp [State.bufByte, Memory.read_writeBytes, h, List.getElem?_eq_getElem (show c - a < bs.length by omega)]
  · simp only [State.bufByte, State.memWriteBuf_buffer, State.memWriteBuf_bufDraw, Memory.read_writeBytes, if_neg h,
      dif_neg h]

@[simp] theorem State.memReadBuf_zero (s : State) (a : Nat) : s.memReadBuf a 0 = [] := rfl

theorem State.memReadBuf_succ (s : State) (a n : Nat) :
    s.memReadBuf a (n + 1) = s.bufByte a :: s.memReadBuf (a + 1) n := rfl

@[simp] theorem State.length_memReadBuf (s : State) (a n : Nat) : (s.memReadBuf a n).length = n := by
  induction n generalizing a with
  | zero => rfl
  | succ n ih => simp [State.memReadBuf_succ, ih]

theorem State.memReadBuf_getElem (s : State) (a n i : Nat) (h : i < (s.memReadBuf a n).length) :
    (s.memReadBuf a n)[i] = s.bufByte (a + i) := by
  induction n generalizing a i with
  | zero => simp at h
  | succ n ih =>
    cases i with
    | zero => rfl
    | succ i =>
      have hi : i < (s.memReadBuf (a + 1) n).length := by simpa using h
      simpa [State.memReadBuf_succ, Nat.add_assoc, Nat.add_comm 1 i] using ih (a + 1) i hi

/-- Reads agree where the bytes agree. -/
theorem State.memReadBuf_congr {s t : State} {a n : Nat} (h : ∀ c, a ≤ c → c < a + n → s.bufByte c = t.bufByte c) :
    s.memReadBuf a n = t.memReadBuf a n := by
  induction n generalizing a with
  | zero => rfl
  | succ n ih =>
    rw [State.memReadBuf_succ, State.memReadBuf_succ, h a (Nat.le_refl _) (by omega),
      ih (fun c h1 h2 => h c (by omega) (by omega))]

theorem State.memReadBuf_append (s : State) (a m n : Nat) :
    s.memReadBuf a (m + n) = s.memReadBuf a m ++ s.memReadBuf (a + m) n := by
  induction m generalizing a with
  | zero => simp
  | succ m ih =>
    rw [Nat.add_right_comm, State.memReadBuf_succ, ih, State.memReadBuf_succ, List.cons_append, Nat.add_assoc a 1 m,
      Nat.add_comm 1 m]

/-- A read of what was just written. -/
@[simp] theorem State.memReadBuf_memWriteBuf_same (s : State) (a : Nat) (bs : List Byte) :
    (s.memWriteBuf a bs).memReadBuf a bs.length = bs := by
  apply List.ext_getElem (by simp)
  intro i h1 h2
  rw [State.memReadBuf_getElem, State.bufByte_memWriteBuf, dif_pos (by omega)]
  simp

/-- A read below a write. -/
theorem State.memReadBuf_memWriteBuf_below (s : State) {a c n : Nat} (bs : List Byte) (h : c + n ≤ a) :
    (s.memWriteBuf a bs).memReadBuf c n = s.memReadBuf c n :=
  State.memReadBuf_congr fun d h1 h2 => by
    rw [State.bufByte_memWriteBuf, dif_neg (by omega)]

/-- The whole buffer after a write that ends the valid bytes. -/
theorem State.memReadBuf_memWriteBuf_extend (s : State) (a : Nat) (bs : List Byte) :
    (s.memWriteBuf a bs).memReadBuf 0 (a + bs.length) = s.memReadBuf 0 a ++ bs := by
  rw [State.memReadBuf_append, State.memReadBuf_memWriteBuf_below s bs (by omega), Nat.zero_add,
    State.memReadBuf_memWriteBuf_same]

/-- A read depends on the buffer's data and the draw alone. -/
theorem State.memReadBuf_eq_of {s t : State} (hb : s.buffer = t.buffer) (hd : s.bufDraw = t.bufDraw) (a n : Nat) :
    s.memReadBuf a n = t.memReadBuf a n :=
  State.memReadBuf_congr fun c _ _ => State.bufByte_congr hb hd c

@[simp] theorem State.length_validBuf (s : State) : s.validBuf.length = s.bufferLen.toNat := by
  simp [State.validBuf]

/-- The valid bytes depend on the buffer's data, the draw and `buffer_len` alone. -/
theorem State.validBuf_eq_of {s t : State} (hb : s.buffer = t.buffer) (hd : s.bufDraw = t.bufDraw)
    (hl : s.bufferLen = t.bufferLen) : s.validBuf = t.validBuf := by
  rw [State.validBuf, State.validBuf, hl, State.memReadBuf_eq_of hb hd]

end Sys2Proof.Machine
end

