-- ==== Sys2Proof/Laws/Decode.lean ====
section
/-! SUPPORT. The fields of a command word as numbers, and what decoding answers by the value of the word. -/

namespace Sys2Proof

/-- The value of a word is `op * 2^64 + arg` (30_encoding.md R102). -/
theorem cmdWord_toNat (op : BitVec 2) (arg : Word) : (cmdWord op arg).toNat = op.toNat * 2^64 + arg.toNat := by
  rw [cmdWord, BitVec.toNat_cast, BitVec.toNat_append, Nat.shiftLeft_eq, Nat.mul_comm]
  rw [← Nat.two_pow_add_eq_or_of_lt arg.isLt]

theorem opOf_toNat (cw : CmdWord) : (opOf cw).toNat = cw.toNat / 2^64 := by
  have := cw.isLt
  rw [opOf, BitVec.extractLsb'_toNat, Nat.shiftRight_eq_div_pow, Nat.mod_eq_of_lt]; omega

theorem argOf_toNat (cw : CmdWord) : (argOf cw).toNat = cw.toNat % 2^64 := by
  rw [argOf, BitVec.extractLsb'_toNat, Nat.shiftRight_eq_div_pow]; simp

theorem opOf_eq_iff (cw : CmdWord) (op : BitVec 2) : opOf cw = op ↔ cw.toNat / 2^64 = op.toNat := by
  rw [← opOf_toNat, BitVec.toNat_inj]

theorem argOf_eq_iff (cw : CmdWord) (a : Word) : argOf cw = a ↔ cw.toNat % 2^64 = a.toNat := by
  rw [← argOf_toNat, BitVec.toNat_inj]

/-- What decoding answers, by the value of the word (30_encoding.md R103, R105, R110). -/
theorem decode_cases (cw : CmdWord) :
   (cw.toNat < 2^64 ∧ decode cw = .instr (.reset (argOf cw))) ∨
   (2^64 ≤ cw.toNat ∧ cw.toNat < 2^65 ∧ decode cw = .instr (.update (argOf cw).toNat)) ∨
   (cw.toNat = 2^65 ∧ decode cw = .instr .digest) ∨
   (2^65 < cw.toNat ∧ cw.toNat < 3 * 2^64 ∧ decode cw = .reserved .digestOperand) ∨
   (3*2^64 ≤ cw.toNat ∧ decode cw = .reserved .opcode) := by
  have hlt := cw.isLt
  unfold decode
  split
  · rename_i h; rw [opOf_eq_iff] at h; simp at h ⊢; omega
  · rename_i h0; rw [opOf_eq_iff] at h0
    split
    · rename_i h; rw [opOf_eq_iff] at h; simp at h h0 ⊢; omega
    · rename_i h1; rw [opOf_eq_iff] at h1
      split
      · rename_i h; rw [opOf_eq_iff] at h
        split
        · rename_i ha; rw [argOf_eq_iff] at ha; simp at h h0 h1 ha ⊢; omega
        · rename_i ha; rw [argOf_eq_iff] at ha; simp at h h0 h1 ha ⊢; omega
      · rename_i h; rw [opOf_eq_iff] at h; simp at h h0 h1 ⊢; omega

end Sys2Proof
end

