-- ==== Sys2Proof/Laws/Digest.lean ====
section
/-! SUPPORT. The tail loops of DIGEST are the fold of the valid bytes. -/

namespace Sys2Proof.Machine

theorem State.memReadBuf_take (s : State) (a : Nat) {k n : Nat} (h : k ≤ n) :
    (s.memReadBuf a n).take k = s.memReadBuf a k := by
  obtain ⟨d, rfl⟩ := Nat.exists_eq_add_of_le h
  rw [State.memReadBuf_append, List.take_left' (State.length_memReadBuf s a k)]

theorem State.memReadBuf_drop (s : State) (a : Nat) {k n : Nat} (h : k ≤ n) :
    (s.memReadBuf a n).drop k = s.memReadBuf (a + k) (n - k) := by
  obtain ⟨d, rfl⟩ := Nat.exists_eq_add_of_le h
  rw [State.memReadBuf_append, List.drop_left' (State.length_memReadBuf s a k), Nat.add_sub_cancel_left]

theorem State.shortInput_iff {s : State} : s.shortInput = true ↔ s.totalLen.toNat < 32 := decide_eq_true_iff

/-- Phase F3 takes every whole 8-byte word. -/
theorem digestTail8_eq (s : State) (fuel : Nat) (h : Word) (pos rem : Nat) (hf : rem / 8 ≤ fuel) :
    digestTail8 s fuel ⟨h, pos, rem⟩ =
      ⟨tailWords (rem / 8) h (s.memReadBuf pos rem), pos + 8 * (rem / 8), rem % 8⟩ := by
  induction fuel generalizing h pos rem with
  | zero =>
    have h0 : rem / 8 = 0 := by omega
    rw [digestTail8, h0, show rem % 8 = rem by omega]
    rfl
  | succ fuel ih =>
    rw [digestTail8]
    by_cases h8 : 8 ≤ rem
    · simp only [h8, if_true]
      rw [ih _ _ _ (by omega), show rem / 8 = (rem - 8) / 8 + 1 by omega, tailWords,
        State.memReadBuf_take s pos h8, State.memReadBuf_drop s pos h8, show (rem - 8) % 8 = rem % 8 by omega,
        show pos + 8 + 8 * ((rem - 8) / 8) = pos + 8 * ((rem - 8) / 8 + 1) by omega]
    · simp only [h8, if_false]
      rw [show rem / 8 = 0 by omega, show rem % 8 = rem by omega]
      rfl

/-- Phase F5 takes every byte that is left. -/
theorem digestTail1_eq (s : State) (fuel : Nat) (h : Word) (pos rem : Nat) (hf : rem ≤ fuel) :
    (digestTail1 s fuel ⟨h, pos, rem⟩).h = tailOnes h (s.memReadBuf pos rem) := by
  induction fuel generalizing h pos rem with
  | zero =>
    obtain rfl : rem = 0 := by omega
    rfl
  | succ fuel ih =>
    rw [digestTail1]
    cases rem with
    | zero => rfl
    | succ rem =>
      simp only [Nat.succ_pos, if_true, Nat.add_sub_cancel]
      rw [ih _ _ _ (by omega)]
      rfl

/-- Phases F4 and F5 on fewer than 8 bytes. -/
theorem digestShort_eq (s : State) (fuel : Nat) (h : Word) (pos rem : Nat) (hf : rem ≤ fuel) :
    (digestTail1 s fuel (digestTail4 s ⟨h, pos, rem⟩)).h = tailShort h (s.memReadBuf pos rem) := by
  rw [digestTail4, tailShort, State.length_memReadBuf]
  by_cases h4 : 4 ≤ rem
  · simp only [h4, if_true]
    rw [digestTail1_eq _ _ _ _ _ (by omega), State.memReadBuf_take s pos h4, State.memReadBuf_drop s pos h4]
  · simp only [h4, if_false]
    exact digestTail1_eq _ _ _ _ _ hf

/-- The tail phases are the fold over the valid bytes. -/
theorem digestTail_eq (s : State) (h : Word) : digestTail s h = tailFold h s.validBuf := by
  rw [digestTail, digestTail8_eq _ _ _ _ _ (Nat.div_le_self _ _), digestShort_eq _ _ _ _ _ (Nat.mod_le _ _), tailFold,
    State.length_validBuf, State.validBuf, State.memReadBuf_drop _ _ (by omega),
    show s.bufferLen.toNat - 8 * (s.bufferLen.toNat / 8) = s.bufferLen.toNat % 8 by omega]

end Sys2Proof.Machine
end

