-- ==== Sys2Proof/Laws/Mixing.lean ====
section
/-! SUPPORT. The rotation, where it sends each bit, and the inverses that the mixing functions rest on. -/

namespace Sys2Proof.Machine

/-- `rotl64` is the rotation of bit vectors. -/
theorem rotl64_eq_rotateLeft (x : Word) {r : Nat} (h : r < 64) : rotl64 x r = x.rotateLeft r := by
  rw [BitVec.rotateLeft_def, rotl64, Nat.mod_eq_of_lt h]

theorem getLsbD_rotateLeft_add (x : Word) {r i : Nat} (h : r < 64) (hi : i < 64) :
    (x.rotateLeft r).getLsbD ((i + r) % 64) = x.getLsbD i := by
  rw [BitVec.getLsbD_rotateLeft, Nat.mod_eq_of_lt h]
  by_cases c : i + r < 64
  · simp [Nat.mod_eq_of_lt c, c]
  · simp [show (i + r) % 64 = i + r - 64 by omega, show i + r - 64 < r by omega,
      show 64 - r + (i + r - 64) = i by omega]

/-- A rotation loses nothing. -/
theorem rotl64_injective {r : Nat} (h : r < 64) {x y : Word} (e : rotl64 x r = rotl64 y r) : x = y := by
  rw [rotl64_eq_rotateLeft x h, rotl64_eq_rotateLeft y h] at e
  apply BitVec.eq_of_getLsbD_eq
  intro i hi
  rw [← getLsbD_rotateLeft_add x h hi, ← getLsbD_rotateLeft_add y h hi, e]

/-- Multiplying by a constant that has an inverse loses nothing. -/
theorem mul_right_injective_of_inverse {c ci : Word} (h : c * ci = 1#64) {x y : Word} (e : x * c = y * c) : x = y := by
  have := congrArg (· * ci) e
  simpa [BitVec.mul_assoc, h] using this

/-- The inverses of the odd constants. -/
theorem P1_mul_inverse : P1 * 0x0887493432BADB37#64 = 1#64 := by decide
theorem P2_mul_inverse : P2 * 0x0BA79078168D4BAF#64 = 1#64 := by decide
theorem P3_mul_inverse : P3 * 0xE9E9F4C41D6DF849#64 = 1#64 := by decide
theorem P5_mul_inverse : P5 * 0xC592C09FDFBA7F0D#64 = 1#64 := by decide

/-- A shift step by half the width or more undoes itself. -/
theorem xorShift_xorShift (h : Word) {r : Nat} (hr : 32 ≤ r) : xorShift (xorShift h r) r = h := by
  apply BitVec.eq_of_getLsbD_eq
  intro i hi
  simp only [xorShift, BitVec.getLsbD_xor, BitVec.getLsbD_ushiftRight]
  rw [BitVec.getLsbD_of_ge h (r + (r + i)) (by omega)]
  cases h.getLsbD i <;> cases h.getLsbD (r + i) <;> rfl

end Sys2Proof.Machine
end

