-- ==== Sys2Proof/Laws/PerInstr.lean ====
section
/-! SUPPORT. One statement about every command as syntax: its word selects the row that the opcode table gives it. -/

namespace Sys2Proof.Laws.SelectsRow

/-- The value of the bits a row fixes, by the row's mask: the `op` field, or the whole word for DIGEST
(30_encoding.md R103 to R105). -/
def fixedBits : Instr → CmdWord → Nat
  | .reset _, cw => cw.toNat / 2 ^ 64 * 2 ^ 64
  | .update _, cw => cw.toNat / 2 ^ 64 * 2 ^ 64
  | .digest, cw => cw.toNat

/-- The `match` value of a command's row (30_encoding.md R116). -/
def rowMatch : Instr → Nat
  | .reset _ => 0x00000000000000000
  | .update _ => 0x10000000000000000
  | .digest => 0x20000000000000000

/-- The word of a command selects its row (30_encoding.md R116). -/
def Statement (i : Instr) : Prop := fixedBits i (encode i) = rowMatch i

theorem reset (seed : Word) : Statement (.reset seed) := by
  have := seed.isLt
  rw [Statement, fixedBits, encode, cmdWord_toNat, rowMatch]
  simp
  omega

theorem update (len : Nat) : Statement (.update len) := by
  have := (BitVec.ofNat 64 len).isLt
  rw [Statement, fixedBits, encode, cmdWord_toNat, rowMatch, BitVec.toNat_ofNat]
  rw [BitVec.toNat_ofNat] at this
  omega

theorem digest : Statement .digest := by
  rw [Statement, fixedBits, encode, cmdWord_toNat, rowMatch]
  decide

end Sys2Proof.Laws.SelectsRow
end

