-- ==== Sys2Proof/Laws/Stripes.lean ====
section
/-! SUPPORT. Eating whole stripes and what remains after them, on byte sequences. -/

namespace Sys2Proof.Machine

@[simp] theorem eatStripes_zero (l : Lanes) (m : List Byte) : eatStripes 0 l m = l := rfl

theorem eatStripes_succ (q : Nat) (l : Lanes) (m : List Byte) :
    eatStripes (q + 1) l m = eatStripes q (stripeEat l (m.take 32)) (m.drop 32) := rfl

/-- Nothing is eaten of fewer than 32 bytes. -/
theorem eatAll_of_lt {m : List Byte} (h : m.length < 32) (l : Lanes) : eatAll l m = l := by
  rw [eatAll, Nat.div_eq_of_lt h, eatStripes_zero]

/-- Fewer than 32 bytes all remain. -/
theorem tailOf_of_lt {m : List Byte} (h : m.length < 32) : tailOf m = m := by
  rw [tailOf, Nat.div_eq_of_lt h, Nat.mul_zero, List.drop_zero]

@[simp] theorem length_tailOf (m : List Byte) : (tailOf m).length = m.length % 32 := by
  rw [tailOf, List.length_drop]
  omega

/-- Eating begins with the first 32 bytes. -/
theorem eatAll_of_le {m : List Byte} (h : 32 ≤ m.length) (l : Lanes) :
    eatAll l m = eatAll (stripeEat l (m.take 32)) (m.drop 32) := by
  rw [eatAll, eatAll, List.length_drop, show m.length / 32 = (m.length - 32) / 32 + 1 by omega, eatStripes_succ]

theorem tailOf_of_le {m : List Byte} (h : 32 ≤ m.length) : tailOf m = tailOf (m.drop 32) := by
  rw [tailOf, tailOf, List.length_drop, List.drop_drop]
  congr 1
  omega

theorem eatAll_stripe_append {a : List Byte} (h : a.length = 32) (l : Lanes) (m : List Byte) :
    eatAll l (a ++ m) = eatAll (stripeEat l a) m := by
  rw [eatAll_of_le (by simp [h]), ← h, List.take_left, List.drop_left]

theorem tailOf_stripe_append {a : List Byte} (h : a.length = 32) (m : List Byte) :
    tailOf (a ++ m) = tailOf m := by
  rw [tailOf_of_le (by simp [h]), ← h, List.drop_left]

/-- Every sequence is its whole stripes, eaten in order, and then its tail: appending to the sequence is appending to
the tail. -/
theorem eatAll_append (l : Lanes) (m p : List Byte) : eatAll l (m ++ p) = eatAll (eatAll l m) (tailOf m ++ p) := by
  induction h : m.length / 32 generalizing l m with
  | zero => rw [eatAll_of_lt (m := m) (by omega), tailOf_of_lt (by omega)]
  | succ q ih =>
    have h32 : 32 ≤ m.length := by omega
    have ht : (m.take 32).length = 32 := by simp [h32]
    conv_lhs => rw [← List.take_append_drop 32 m, List.append_assoc, eatAll_stripe_append ht]
    rw [ih _ _ (by rw [List.length_drop]; omega), eatAll_of_le h32, tailOf_of_le h32]

theorem tailOf_append (m p : List Byte) : tailOf (m ++ p) = tailOf (tailOf m ++ p) := by
  induction h : m.length / 32 generalizing m with
  | zero => rw [tailOf_of_lt (m := m) (by omega)]
  | succ q ih =>
    have h32 : 32 ≤ m.length := by omega
    have ht : (m.take 32).length = 32 := by simp [h32]
    conv_lhs => rw [← List.take_append_drop 32 m, List.append_assoc, tailOf_stripe_append ht]
    rw [ih _ (by rw [List.length_drop]; omega), tailOf_of_le h32]

end Sys2Proof.Machine
end

