-- ==== Sys2Proof/Laws/Update.lean ====
section
/-! SUPPORT. What the phases of UPDATE do, said once: callers cite these and unfold no phase. -/

namespace Sys2Proof.Machine

theorem State.appends_iff {s : State} {n : Nat} : s.appends n = true ↔ s.bufferLen.toNat + n < 32 :=
  decide_eq_true_iff

theorem State.holdsBytes_iff {s : State} : s.holdsBytes = true ↔ 0 < s.bufferLen.toNat := decide_eq_true_iff

@[simp] theorem length_memReadPay (p : List Byte) (a n : Nat) : (memReadPay p a n).length = min n (p.length - a) := by
  simp [memReadPay]

theorem memReadPay_rest (p : List Byte) (a : Nat) : memReadPay p a (p.length - a) = p.drop a := by
  rw [memReadPay, List.take_of_length_le (by simp)]

theorem memReadPay_first (p : List Byte) (n : Nat) : memReadPay p 0 n = p.take n := rfl

/-- Phase U4 eats every whole stripe from the cursor on, and changes nothing but the lanes. -/
theorem updateDirect_eq (p : List Byte) (fuel : Nat) (s : State) (pos : Nat) (h : (p.length - pos) / 32 ≤ fuel) :
    updateDirect p fuel (s, pos) =
      ({ s with lanes := eatAll s.lanes (p.drop pos) }, pos + 32 * ((p.length - pos) / 32)) := by
  induction fuel generalizing s pos with
  | zero =>
    rw [updateDirect, eatAll_of_lt (by rw [List.length_drop]; omega), Nat.le_zero.1 h]
    rfl
  | succ fuel ih =>
    rw [updateDirect]
    split
    · rw [ih _ _ (by omega), eatAll_of_le (m := p.drop pos) (by rw [List.length_drop]; omega), List.drop_drop]
      refine Prod.ext rfl ?_
      show _ = pos + 32 * ((p.length - pos) / 32)
      omega
    · rw [eatAll_of_lt (by rw [List.length_drop]; omega), show (p.length - pos) / 32 = 0 by omega]
      rfl

theorem drop_stripes (p : List Byte) (pos : Nat) :
    p.drop (pos + 32 * ((p.length - pos) / 32)) = tailOf (p.drop pos) := by
  rw [tailOf, List.drop_drop, List.length_drop]

/-- Phase U5 puts what is left at the start of the buffer. -/
theorem updateStash_eq (p : List Byte) (s : State) (pos : Nat) :
    updateStash p (s, pos) =
      { s with
        buffer := s.buffer.writeBytes 0 (p.drop pos)
        bufferLen := BitVec.ofNat 5 (p.drop pos).length } := by
  rw [updateStash]
  simp only [memReadPay_rest]
  rfl

/-- Phase U3 when the buffer holds bytes: the first `32 - buffer_len` payload bytes complete one stripe. -/
theorem updateFill_of_holds {p : List Byte} {s : State} (hb : 0 < s.bufferLen.toNat)
    (hl : 32 ≤ s.bufferLen.toNat + p.length) :
    updateFill p s =
      ({ s with
          buffer := s.buffer.writeBytes s.bufferLen.toNat (p.take (32 - s.bufferLen.toNat))
          lanes := stripeEat s.lanes (s.validBuf ++ p.take (32 - s.bufferLen.toNat))
          bufferLen := 0#5 }, 32 - s.bufferLen.toNat) := by
  have hlt := s.bufferLen.isLt
  have hk : (p.take (32 - s.bufferLen.toNat)).length = 32 - s.bufferLen.toNat := by simp; omega
  have h32 : s.bufferLen.toNat + (p.take (32 - s.bufferLen.toNat)).length = 32 := by omega
  have hread := State.memReadBuf_memWriteBuf_extend s s.bufferLen.toNat (p.take (32 - s.bufferLen.toNat))
  rw [h32] at hread
  rw [updateFill, if_pos (State.holdsBytes_iff.2 hb)]
  simp only [memReadPay_first, hread]
  rfl

/-- Phase U3 when the buffer is empty: nothing. -/
theorem updateFill_of_empty {p : List Byte} {s : State} (hb : s.bufferLen.toNat = 0) : updateFill p s = (s, 0) := by
  rw [updateFill, if_neg (fun h => by have := State.holdsBytes_iff.1 h; omega)]

/-- The append path: UPDATE of a payload that does not fill the buffer. -/
theorem updateBody_append {p : List Byte} {s : State} (h : s.bufferLen.toNat + p.length < 32) :
    updateBody p s = updateAppend p (updateCount p.length s) := by
  rw [updateBody]
  exact if_pos (State.appends_iff.2 h)

/-- The fill path: the whole effect of UPDATE on a buffer that holds bytes and becomes full. -/
theorem updateBody_fill {p : List Byte} {s : State} (hb : 0 < s.bufferLen.toNat)
    (hl : 32 ≤ s.bufferLen.toNat + p.length) :
    updateBody p s =
      { s with
        totalLen := s.totalLen + BitVec.ofNat 64 p.length
        lanes := eatAll (stripeEat s.lanes (s.validBuf ++ p.take (32 - s.bufferLen.toNat)))
          (p.drop (32 - s.bufferLen.toNat))
        buffer := (s.buffer.writeBytes s.bufferLen.toNat (p.take (32 - s.bufferLen.toNat))).writeBytes 0
          (tailOf (p.drop (32 - s.bufferLen.toNat)))
        bufferLen := BitVec.ofNat 5 ((s.bufferLen.toNat + p.length) % 32) } := by
  have hlt := s.bufferLen.isLt
  rw [updateBody, if_neg (fun h => by have := State.appends_iff.1 h; rw [updateCount_bufferLen] at this; omega),
    updateFill_of_holds (s := updateCount p.length s) hb hl, updateDirect_eq _ _ _ _ (by omega), updateStash_eq, drop_stripes, length_tailOf,
    List.length_drop, updateCount_bufferLen,
    show (p.length - (32 - s.bufferLen.toNat)) % 32 = (s.bufferLen.toNat + p.length) % 32 by omega,
    State.validBuf_eq_of (s := updateCount p.length s) (t := s) rfl rfl rfl]
  simp only [updateCount_lanes, updateCount_seed, updateCount_buffer, updateCount_totalLen, updateCount_cmdq,
    updateCount_dinq, updateCount_doutq, updateCount_rst, updateCount_bufDraw]

/-- The direct path: the whole effect of UPDATE on an empty buffer with at least one whole stripe. -/
theorem updateBody_direct {p : List Byte} {s : State} (hb : s.bufferLen.toNat = 0) (hl : 32 ≤ p.length) :
    updateBody p s =
      { s with
        totalLen := s.totalLen + BitVec.ofNat 64 p.length
        lanes := eatAll s.lanes p
        buffer := s.buffer.writeBytes 0 (tailOf p)
        bufferLen := BitVec.ofNat 5 (p.length % 32) } := by
  rw [updateBody, if_neg (fun h => by have := State.appends_iff.1 h; omega), updateFill_of_empty (s := updateCount p.length s) hb,
    updateDirect_eq _ _ _ _ (by omega), updateStash_eq, drop_stripes, length_tailOf, List.drop_zero]
  rfl

/-- What every path of UPDATE leaves alone, and the counter. -/
theorem updateBody_frame (p : List Byte) (s : State) :
    (updateBody p s).totalLen = s.totalLen + BitVec.ofNat 64 p.length ∧ (updateBody p s).seed = s.seed ∧
    (updateBody p s).cmdq = s.cmdq ∧ (updateBody p s).dinq = s.dinq ∧ (updateBody p s).doutq = s.doutq ∧
    (updateBody p s).rst = s.rst ∧ (updateBody p s).bufDraw = s.bufDraw := by
  by_cases h : s.bufferLen.toNat + p.length < 32
  · rw [updateBody_append h]
    simp
  · by_cases hb : 0 < s.bufferLen.toNat
    · rw [updateBody_fill hb (by omega)]
      simp
    · rw [updateBody_direct (by omega) (by omega)]
      simp

/-- The fill of the buffer after UPDATE. -/
theorem updateBody_fillCount (p : List Byte) (s : State) :
    (updateBody p s).bufferLen.toNat = (s.bufferLen.toNat + p.length) % 32 := by
  by_cases h : s.bufferLen.toNat + p.length < 32
  · rw [updateBody_append h, updateAppend_bufferLen, BitVec.toNat_ofNat, updateCount_bufferLen]
  · by_cases hb : 0 < s.bufferLen.toNat
    · rw [updateBody_fill hb (by omega)]
      simp
    · rw [updateBody_direct (by omega) (by omega)]
      simp [show s.bufferLen.toNat = 0 by omega]

/-- What UPDATE leaves in the buffer when it writes `bs` from offset 0: the valid bytes are `bs`. -/
theorem State.validBuf_of_writeBytes {t : State} {m : Memory} {bs : List Byte} (hb : t.buffer = m.writeBytes 0 bs)
    (hl : t.bufferLen.toNat = bs.length) : t.validBuf = bs := by
  rw [State.validBuf, hl, ← State.memReadBuf_eq_of (s := State.memWriteBuf { t with buffer := m } 0 bs) hb.symm rfl]
  exact State.memReadBuf_memWriteBuf_same _ 0 bs

/-- The net effect of UPDATE on every path: the lanes eat the whole stripes of the valid bytes followed by the payload,
and what remains of that sequence is the valid bytes. -/
theorem updateBody_net (p : List Byte) (s : State) :
    (updateBody p s).lanes = eatAll s.lanes (s.validBuf ++ p) ∧
    (updateBody p s).validBuf = tailOf (s.validBuf ++ p) := by
  have hlt := s.bufferLen.isLt
  have hlen : (s.validBuf ++ p).length = s.bufferLen.toNat + p.length := by simp
  by_cases h : s.bufferLen.toNat + p.length < 32
  · rw [eatAll_of_lt (by omega), tailOf_of_lt (by omega), updateBody_append h]
    refine ⟨rfl, ?_⟩
    rw [State.validBuf, updateAppend_bufferLen, BitVec.toNat_ofNat, updateCount_bufferLen, Nat.mod_eq_of_lt (by omega)]
    rw [State.validBuf, ← State.memReadBuf_memWriteBuf_extend]
    exact State.memReadBuf_eq_of (s := updateAppend p (updateCount p.length s)) (t := s.memWriteBuf _ p) rfl rfl _ _
  · by_cases hb : 0 < s.bufferLen.toNat
    · have hsplit : s.validBuf ++ p =
          (s.validBuf ++ p.take (32 - s.bufferLen.toNat)) ++ p.drop (32 - s.bufferLen.toNat) := by
        rw [List.append_assoc, List.take_append_drop]
      have h32 : (s.validBuf ++ p.take (32 - s.bufferLen.toNat)).length = 32 := by
        rw [List.length_append, State.length_validBuf, List.length_take]
        omega
      rw [hsplit, eatAll_stripe_append h32, tailOf_stripe_append h32, updateBody_fill hb (by omega)]
      refine ⟨rfl, State.validBuf_of_writeBytes rfl ?_⟩
      rw [BitVec.toNat_ofNat, length_tailOf, List.length_drop]
      omega
    · have hnil : s.validBuf = [] := List.eq_nil_of_length_eq_zero (by simp; omega)
      rw [hnil, List.nil_append, updateBody_direct (by omega) (by omega)]
      refine ⟨rfl, State.validBuf_of_writeBytes rfl ?_⟩
      rw [BitVec.toNat_ofNat, length_tailOf]
      omega

end Sys2Proof.Machine
end

