-- ==== Sys2Proof/Laws/Step.lean ====
section
/-! SUPPORT. Everything a command and a step can do, said once, and how a run unfolds. -/

namespace Sys2Proof.Machine

theorem step_rst {s : State} (h : s.rst = true) : step s = .next s.hardwareReset := by simp [step, h]

theorem step_idle {s : State} (h : s.rst = false) (hc : s.cmdq = []) : step s = .next s := by
  simp [step, h, State.nextWord, hc]

theorem step_instr {s : State} {cw rest i} (h : s.rst = false) (hc : s.cmdq = cw :: rest) (hd : decode cw = .instr i) : step s = exec i s := by
  simp [step, h, State.nextWord, hc, hd]

theorem step_reserved {s : State} {cw rest r} (h : s.rst = false) (hc : s.cmdq = cw :: rest) (hd : decode cw = .reserved r) : step s = .refused (refusalOf r) := by
  simp [step, h, State.nextWord, hc, hd]

/-- UPDATE without its whole payload waits. -/
theorem execUpdate_wait {s : State} {len} (h : s.dinq.length < len) : exec (.update len) s = .next s := by
  simp [exec, execUpdate, State.payloadPresent, h]

/-- UPDATE with its whole payload has its effect. -/
theorem execUpdate_run {s : State} {len} (h : len ≤ s.dinq.length) : exec (.update len) s = .next (updateBody (s.dinq.take len) (s.consumePayload len)).retire := by
  simp [exec, execUpdate, State.payloadPresent, h, State.payload]

/-- Everything UPDATE can do. -/
theorem execUpdate_cases {s t : State} {len} (h : exec (.update len) s = .next t) :
   (s.dinq.length < len ∧ t = s) ∨ (len ≤ s.dinq.length ∧ t = (updateBody (s.dinq.take len) (s.consumePayload len)).retire) := by
  by_cases hl : len ≤ s.dinq.length
  · rw [execUpdate_run hl] at h; simp at h; exact .inr ⟨hl, h.symm⟩
  · rw [execUpdate_wait (by omega)] at h; simp at h; exact .inl ⟨by omega, h.symm⟩

/-- Every command answers a next state from every state. -/
theorem exec_next (i : Instr) (s : State) : ∃ t, exec i s = .next t := by
  cases i with
  | reset sd => exact ⟨_, rfl⟩
  | update len =>
    by_cases h : len ≤ s.dinq.length
    · exact ⟨_, execUpdate_run h⟩
    · exact ⟨_, execUpdate_wait (by omega)⟩
  | digest => exact ⟨_, rfl⟩

/-- Everything a step that is no hardware reset and answers a next state can be. -/
theorem step_cases {s t : State} (h : s.rst = false) (hs : step s = .next t) :
   (s.cmdq = [] ∧ t = s) ∨ ∃ cw rest i, s.cmdq = cw :: rest ∧ decode cw = .instr i ∧ exec i s = .next t := by
  cases hc : s.cmdq with
  | nil => rw [step_idle h hc] at hs; simp at hs; exact .inl ⟨rfl, hs.symm⟩
  | cons cw rest =>
    cases hd : decode cw with
    | instr i => rw [step_instr h hc hd] at hs; exact .inr ⟨cw, rest, i, rfl, hd, hs⟩
    | reserved r => rw [step_reserved h hc hd] at hs; simp at hs

theorem run_next_of (M : Host.Core) {k : Nat} {s t : M.State} (h : M.step s = .next t) : M.run (k+1) s = M.run k t := by
  rw [Host.Core.run, h]

theorem run_refused_of (M : Host.Core) {k : Nat} {s : M.State} {r} (h : M.step s = .refused r) : M.run (k+1) s = .refused r := by
  rw [Host.Core.run, h]

theorem run_next {k : Nat} {s t : State} (h : step s = .next t) : Host.Core.run Sys2Proof.core (k+1) s = Host.Core.run Sys2Proof.core k t := run_next_of Sys2Proof.core h

theorem run_refused {k : Nat} {s : State} {r} (h : step s = .refused r) : Host.Core.run Sys2Proof.core (k+1) s = .refused r := run_refused_of Sys2Proof.core h

theorem validBuf_empty {s : State} (h : s.bufferLen = 0#5) : s.validBuf = [] := by simp [State.validBuf, h]

end Sys2Proof.Machine
end

