-- ==== Sys2Proof/Machine/Assembler.lean ====
section
/-! DEFINITION. The one-line listing syntax (30_encoding.md R114, R115), as a parser of one line of characters. What R114
leaves open of the spelling is in log entry 16. -/

namespace Sys2Proof.Machine

/-- The value of a digit, decimal or hexadecimal. -/
def digitOf (base : Nat) (c : Char) : Option Nat :=
  let n := c.toNat
  let v :=
    if 48 ≤ n ∧ n ≤ 57 then n - 48
    else if 65 ≤ n ∧ n ≤ 70 then n - 55
    else if 97 ≤ n ∧ n ≤ 102 then n - 87
    else 16
  if v < base then some v else none

/-- The line without its leading spaces. -/
def skipSpaces : List Char → List Char
  | ' ' :: cs => skipSpaces cs
  | cs => cs

/-- The line after a keyword, if it begins with it. -/
def afterKeyword : List Char → List Char → Option (List Char)
  | [], cs => some cs
  | _ :: _, [] => none
  | k :: ks, c :: cs => if k = c then afterKeyword ks cs else none

/-- As many digits as there are: their value (after `acc`), how many, and the rest of the line. -/
def readDigits (base : Nat) : (acc count : Nat) → List Char → Nat × Nat × List Char
  | acc, count, [] => (acc, count, [])
  | acc, count, c :: cs =>
    match digitOf base c with
    | some v => readDigits base (acc * base + v) (count + 1) cs
    | none => (acc, count, c :: cs)

/-- A u64 literal, decimal or `0x` hexadecimal: at least one digit, and a value below 2^64. -/
def readWord (cs : List Char) : Option (Word × List Char) :=
  let (v, n, rest) :=
    match afterKeyword ['0', 'x'] cs with
    | some hex => readDigits 16 0 0 hex
    | none => readDigits 10 0 0 cs
  if 0 < n ∧ v < 2 ^ 64 then some (BitVec.ofNat 64 v, rest) else none

/-- Pairs of hexadecimal digits, first byte first, and the rest of the line. -/
def readHexBytes : List Char → List Byte × List Char
  | c :: d :: cs =>
    match digitOf 16 c, digitOf 16 d with
    | some x, some y =>
      let r := readHexBytes cs
      (BitVec.ofNat 8 (16 * x + y) :: r.1, r.2)
    | _, _ => ([], c :: d :: cs)
  | cs => ([], cs)

/-- The ASCII codes of the characters up to the closing quote, and the rest of the line. -/
def readQuoted : List Char → Option (List Byte × List Char)
  | [] => none
  | c :: cs =>
    if c = '"' then some ([], cs)
    else if c.toNat < 128 then (readQuoted cs).map (fun r => (BitVec.ofNat 8 c.toNat :: r.1, r.2))
    else none

/-- A byte-sequence literal: `hex:..`, `"..."` or `[]`. -/
def readBytes (cs : List Char) : Option (List Byte × List Char) :=
  match afterKeyword ['h', 'e', 'x', ':'] cs with
  | some hex => some (readHexBytes hex)
  | none =>
    match afterKeyword ['[', ']'] cs with
    | some rest => some ([], rest)
    | none =>
      match afterKeyword ['"'] cs with
      | some quoted => readQuoted quoted
      | none => none

/-- Nothing more stands on the line but spaces and a comment, which `;` starts. -/
def lineEnds (cs : List Char) : Bool :=
  match skipSpaces cs with
  | [] => true
  | c :: _ => c = ';'

/-- Nothing more stands on the line of a DIGEST but its result after `->`, or a comment. -/
def digestLineEnds (cs : List Char) : Bool := lineEnds cs || (afterKeyword ['-', '>'] (skipSpaces cs)).isSome

/-- A mnemonic at the start of the line, with its operands, if a space or the line's end follows it. -/
def afterMnemonic (name : List Char) (cs : List Char) : Option (List Char) :=
  match afterKeyword name (skipSpaces cs) with
  | some [] => some []
  | some (c :: rest) => if c = ' ' then some (skipSpaces rest) else if c = ';' then some (c :: rest) else none
  | none => none

/-- `RESET <seed>`. -/
def parseReset (cs : List Char) : Option Listing :=
  match (afterMnemonic ['R', 'E', 'S', 'E', 'T'] cs).bind readWord with
  | some (seed, rest) => if lineEnds rest then some (.command (.reset seed)) else none
  | none => none

/-- `UPDATE <bytes>`. -/
def parseUpdate (cs : List Char) : Option Listing :=
  match (afterMnemonic ['U', 'P', 'D', 'A', 'T', 'E'] cs).bind readBytes with
  | some (bytes, rest) => if lineEnds rest then some (.command (.update bytes)) else none
  | none => none

/-- `DIGEST`. -/
def parseDigest (cs : List Char) : Option Listing :=
  match afterMnemonic ['D', 'I', 'G', 'E', 'S', 'T'] cs with
  | some rest => if digestLineEnds rest then some (.command .digest) else none
  | none => none

/-- `ONESHOT <bytes>, <seed>`; its result may stand after `->`, as DIGEST's. -/
def parseOneshot (cs : List Char) : Option Listing :=
  match (afterMnemonic ['O', 'N', 'E', 'S', 'H', 'O', 'T'] cs).bind readBytes with
  | some (bytes, rest) =>
    match (afterKeyword [','] (skipSpaces rest)).bind (fun r => readWord (skipSpaces r)) with
    | some (seed, rest') => if digestLineEnds rest' then some (.oneshot bytes seed) else none
    | none => none
  | none => none

/-- `RESETD`. -/
def parseResetd (cs : List Char) : Option Listing :=
  match afterMnemonic ['R', 'E', 'S', 'E', 'T', 'D'] cs with
  | some rest => if lineEnds rest then some .resetd else none
  | none => none

/-- One line of a listing. -/
def parseLine (cs : List Char) : Option Listing :=
  parseReset cs <|> parseUpdate cs <|> parseDigest cs <|> parseOneshot cs <|> parseResetd cs

end Sys2Proof.Machine
end

