-- ==== Sys2Proof/Tests/Slice0.lean ====
section
/-! SUPPORT. Tests against the spec's own vectors (95_test_vectors.md, 96_test_vectors_tables.md, cited as V followed by
the section), and a witness for the hypotheses of every statement. -/

namespace Sys2Proof.Tests

open Sys2Proof.Machine

/-! ### Well-formedness: one ill-formed term for the one check -/

theorem test_wf_refuses_too_long_update : (Instr.update (2 ^ 64)).wf = false := by decide
theorem test_wf_accepts_longest_update : (Instr.update (2 ^ 64 - 1)).wf = true := by decide

/-! ### Decoding words written out from 30_encoding.md R101 to R110 (V2.7) -/

theorem test_decode_reset :
    decode (0b00#2 ++ 0b0000000000000000000000000000000010011110001101110111100110110001#64) =
      .instr (.reset 2654435761#64) := by decide
theorem test_decode_update :
    decode (0b01#2 ++ 0b0000000000000000000000000000000000000000000000000000000000001110#64) =
      .instr (.update 14) := by decide
theorem test_decode_update_longest : decode 0x1FFFFFFFFFFFFFFFF#66 = .instr (.update (2 ^ 64 - 1)) := by decide
theorem test_decode_digest :
    decode (0b10#2 ++ 0b0000000000000000000000000000000000000000000000000000000000000000#64) =
      .instr .digest := by decide
theorem test_decode_digest_with_operand : decode 0x20000000000000001#66 = .reserved .digestOperand := by decide
theorem test_decode_last_reserved_digest : decode 0x2FFFFFFFFFFFFFFFF#66 = .reserved .digestOperand := by decide
theorem test_decode_opcode_three : decode 0x30000000000000000#66 = .reserved .opcode := by decide
theorem test_encode_digest : encode .digest = 0x20000000000000000#66 := by decide
theorem test_table_word_refuses_bit_66 : decodeTableWord 72 0x40000000000000000 = none := by decide

/-! ### Mixing (V2.2) -/

theorem test_rotl64 : rotl64 0x0123456789ABCDEF#64 23 = 0xB3C4D5E6F78091A2#64 := by decide
theorem test_round : round 0x60EA27EEADC0B5D6#64 0x0706050403020100#64 = 0xF4B53B57406B5E99#64 := by decide
theorem test_mergeRound : mergeRound 1#64 2#64 = 0x3E6ECD4C2FFF0489#64 := by decide
theorem test_tail8 : tail8 0x27D4EB2F165667D3#64 0xDD2F535E4B1FFF9E#64 = 0xB398A4B20F24F65A#64 := by decide
theorem test_tail4_zero_extends : tail4 0#64 0x80000000#32 = 0x79B45A29E69090A7#64 := by decide
theorem test_tail1_zero_extends : tail1 0#64 0x80#8 = 0x8BE2905C89885AC5#64 := by decide
theorem test_avalanche : avalanche 0xFFFFFFFFFFFFFFFF#64 = 0x100AB62DAADD9289#64 := by decide
theorem test_avalancheInv : avalancheInv 0xEF46DB3751D8E999#64 = 0x27D4EB2F165667C5#64 := by decide
/-- 20_memory.md R73, its example. -/
theorem test_le64 : le64 [0x9E#8, 0xFF#8, 0x1F#8, 0x4B#8, 0x5E#8, 0x53#8, 0x2F#8, 0xDD#8] = 0xDD2F535E4B1FFF9E#64 := by
  decide
theorem test_le32 : le32 [0xB5#8, 0x54#8, 0x4D#8, 0x2A#8] = 0x2A4D54B5#32 := by decide

/-! ### One step of each command -/

/-- The state that `RESET 0` leaves right after hardware reset (V2.3, row 1), with one command word and some payload. -/
def fresh (cw : CmdWord) (payload : List Byte) : State :=
  { State.reset.startStream 0#64 with cmdq := [cw], dinq := payload }

/-- The bytes `A[a .. a + n)` of the spec's vectors. -/
def bytesA (a : Nat) : Nat → List Byte
  | 0 => []
  | n + 1 => BitVec.ofNat 8 a :: bytesA (a + 1) n

/-- The state that an outcome holds, if it is a next state. -/
def nextOf (o : Host.Outcome State Fault Refusal) : Option State :=
  match o with
  | .next t => some t
  | _ => none

/-- V2.3, row 6. -/
theorem test_reset_lanes :
    (nextOf (exec (.reset 0x9E3779B185EBCA87#64) State.reset)).map State.lanes =
      some ⟨0xFF21A1A033AC805D#64, 0x60EA27EEADC0B5D6#64, 0x9E3779B185EBCA87#64, 0#64⟩ := by decide

/-- V2.5, counter wrap: the state it starts from. -/
def beforeWrap : State :=
  { fresh 0x10000000000000014#66 (bytesA 0 20) with
    totalLen := 0xFFFFFFFFFFFFFFF8#64
    bufferLen := 24#5
    buffer := Memory.writeBytes [] 0 ((List.range 24).map (fun i => BitVec.ofNat 8 (0x80 + 3 * i))) }

/-- V2.5, counter wrap: the lanes, the counters and the valid bytes after it. -/
theorem test_update_wraps_the_counter :
    (nextOf (step beforeWrap)).map (fun t => (t.lanes, t.totalLen, t.bufferLen, (t.buffer.take 12).map Prod.snd)) =
      some (⟨0x065DEE4325F15524#64, 0x98C2793E29A64A5A#64, 0x635C68F5F6E1A8A6#64, 0x509CABEDF75920E9#64⟩,
        12#64, 12#5, bytesA 8 12) := by decide

/-- V2.5, the row `UPDATE A[0..33)`: direct path, one byte stashed. -/
theorem test_update_direct :
    (nextOf (step (fresh 0x10000000000000021#66 (bytesA 0 33)))).map
        (fun t => (t.lanes, t.bufferLen, t.buffer.map Prod.snd, t.dinq)) =
      some (⟨0xF4B53B57406B5E99#64, 0xC3D34B511FC32561#64, 0xCB26C007C8A1553F#64, 0x9A44D001A7F91C07#64⟩,
        1#5, [0x20#8], []) := by decide

/-- V1.2, `buf[0..14)` under seed 0, a source vector. -/
theorem test_digest_short :
    (nextOf (step { fresh 0x20000000000000000#66 [] with
        totalLen := 14#64, bufferLen := 14#5
        buffer := Memory.writeBytes [] 0 [0x9E#8, 0xFF#8, 0x1F#8, 0x4B#8, 0x5E#8, 0x53#8, 0x2F#8, 0xDD#8, 0xB5#8,
          0x54#8, 0x4D#8, 0x2A#8, 0x95#8, 0x2B#8] })).map State.doutq =
      some [0xCFFA8DB881BC3A3D#64] := by decide

/-- V1.2 and V2.6 T5, `buf[0..101)` under seed 0, a source vector. -/
theorem test_digest_merge :
    (nextOf (step { fresh 0x20000000000000000#66 [] with
        lanes := ⟨0xB9B3DB060ABA209B#64, 0x11DAD5757189DCDD#64, 0x719D3B6BA55EC282#64, 0xB4C5CFEB3EC393A7#64⟩
        totalLen := 101#64, bufferLen := 5#5
        buffer := Memory.writeBytes [] 0 [0#8, 0#8, 0#8, 0#8, 0#8] })).map State.doutq =
      some [0x0EAB543384F878AD#64] := by decide

/-- V3 P5a. -/
theorem test_reserved_word_is_refused : step (fresh 0x20000000000000001#66 []) = .refused .reservedDigestOperand :=
  rfl

/-! ### Listings (V3) -/

theorem test_listing_update_hex :
    parseLine "UPDATE hex:202122 ; three bytes".toList = some (.command (.update [0x20#8, 0x21#8, 0x22#8])) := by decide
theorem test_listing_oneshot :
    parseLine "ONESHOT \"abc\", 0".toList = some (.oneshot [0x61#8, 0x62#8, 0x63#8] 0#64) := by decide
theorem test_listing_resetd : parseLine "RESETD".toList = some .resetd := by decide

/-! ### Witnesses: a state and operands that meet the hypotheses of each statement, clause by clause -/

theorem witness_RowsSelectByMaskAndMatch :
    0x0FFFFFFFFFFFFFFFF#66 &&& 0x30000000000000000#66 = 0x00000000000000000#66 ∧
    0x1FFFFFFFFFFFFFFFF#66 &&& 0x30000000000000000#66 = 0x10000000000000000#66 ∧
    0x20000000000000000#66 &&& 0x3FFFFFFFFFFFFFFFF#66 = 0x20000000000000000#66 ∧
    0x20000000000000001#66 &&& 0x30000000000000000#66 ≠ 0x00000000000000000#66 ∧
    0x20000000000000001#66 &&& 0x30000000000000000#66 ≠ 0x10000000000000000#66 ∧
    0x20000000000000001#66 &&& 0x3FFFFFFFFFFFFFFFF#66 ≠ 0x20000000000000000#66 := by decide
theorem witness_EncodeThenDecodeIsIdentity :
    (Instr.reset 0xFFFFFFFFFFFFFFFF#64).wf = true ∧ (Instr.update (2 ^ 64 - 1)).wf = true ∧
    Instr.digest.wf = true := by decide
theorem witness_DecodeThenEncodeIsIdentity :
    decode 0x0FFFFFFFFFFFFFFFF#66 = .instr (.reset 0xFFFFFFFFFFFFFFFF#64) ∧
    decode 0x10000000000000000#66 = .instr (.update 0) ∧ decode 0x20000000000000000#66 = .instr .digest := by decide
theorem witness_PseudoInstructionsExpand :
    decode 0x00000000000000000#66 = .instr (.reset 0#64) ∧
    decode 0x1FFFFFFFFFFFFFFFF#66 = .instr (.update (2 ^ 64 - 1)) ∧
    decode 0x20000000000000000#66 = .instr .digest := by decide
theorem witness_HardwareResetOverridesEverything :
    (fresh 0x3FFFFFFFFFFFFFFFF#66 [1#8]).hostResetWithinStep.rst = true := by decide
theorem witness_IdleCoreKeepsItsState : State.reset.rst = false ∧ State.reset.cmdq = [] := by decide
theorem witness_StepRunsTheDecodedCommand :
    (fresh 0x10000000000000000#66 []).rst = false ∧
    (fresh 0x10000000000000000#66 []).cmdq = [0x10000000000000000#66] ∧
    decode 0x10000000000000000#66 = .instr (.update 0) := by decide
theorem witness_OnlyReservedWordsAreRefused_reserved :
    (fresh 0x20000000000000001#66 []).rst = false ∧
    (fresh 0x20000000000000001#66 []).cmdq = [0x20000000000000001#66] ∧
    0x20000000000000000 < (0x20000000000000001#66).toNat := by decide
theorem witness_OnlyReservedWordsAreRefused_command :
    (fresh 0x20000000000000000#66 []).rst = false ∧
    (fresh 0x20000000000000000#66 []).cmdq = [0x20000000000000000#66] ∧
    (0x20000000000000000#66).toNat ≤ 0x20000000000000000 := by decide
theorem witness_PlacedWordRunsNext : decodeTableWord 72 0x10000000000000001 = some (.update 1) := by decide
theorem witness_CommandsCompleteOneAtATimeInOrder :
    (fresh 0x10000000000000020#66 (bytesA 0 33)).rst = false ∧
    (nextOf (step (fresh 0x10000000000000020#66 (bytesA 0 33)))).isSome = true ∧
    (nextOf (step (fresh 0x10000000000000020#66 (bytesA 0 31)))).isSome = true ∧
    State.reset.rst = false ∧ (nextOf (step State.reset)).isSome = true := by decide
theorem witness_OnlyDigestPutsAValueOnDout_digest :
    (fresh 0x20000000000000000#66 []).rst = false ∧
    (nextOf (step (fresh 0x20000000000000000#66 []))).isSome = true ∧
    (fresh 0x20000000000000000#66 []).cmdq = [0x20000000000000000#66] ∧
    decode 0x20000000000000000#66 = .instr .digest := by decide
theorem witness_OnlyDigestPutsAValueOnDout_other :
    State.reset.rst = false ∧ step State.reset = .next State.reset ∧
    ¬ ∃ cw rest, State.reset.cmdq = cw :: rest ∧ decode cw = .instr .digest :=
  ⟨rfl, rfl, fun ⟨_, _, h, _⟩ => nomatch h⟩
theorem witness_OnlyResetChangesTheSeed :
    State.reset.rst = false ∧
    (¬ ∃ cw rest sd, State.reset.cmdq = cw :: rest ∧ decode cw = .instr (.reset sd)) ∧
    step State.reset = .next State.reset :=
  ⟨rfl, (fun ⟨_, _, _, h, _⟩ => nomatch h), rfl⟩
theorem witness_ResetForgetsTheStream :
    exec (.reset 7#64) State.reset = .next (State.reset.startStream 7#64).retire ∧
    exec (.reset 7#64) beforeWrap = .next (beforeWrap.startStream 7#64).retire := ⟨rfl, rfl⟩
theorem witness_UpdateWaitsForItsPayload :
    (fresh 0x10000000000000004#66 (bytesA 0 3)).dinq.length < 4 ∧
    (fresh 0x10000000000000004#66 (bytesA 0 3)).rst = false ∧
    (fresh 0x10000000000000004#66 (bytesA 0 3)).cmdq = [0x10000000000000004#66] ∧
    decode 0x10000000000000004#66 = .instr (.update 4) := by decide
theorem witness_UpdateCompletesAndCounts : 20 ≤ beforeWrap.dinq.length := by decide
/-- The last length that only appends. -/
theorem witness_UpdateAppendsAShortPayload : 7 ≤ beforeWrap.dinq.length ∧ beforeWrap.bufferLen.toNat + 7 < 32 := by
  decide
/-- The first length that fills the buffer. -/
theorem witness_UpdateEatsStripesAndStashesTheRest_fill :
    8 ≤ beforeWrap.dinq.length ∧ 32 ≤ beforeWrap.bufferLen.toNat + 8 ∧ 0 < beforeWrap.bufferLen.toNat ∧
    8 = (if 0 < beforeWrap.bufferLen.toNat then 32 - beforeWrap.bufferLen.toNat else 0) := by decide
theorem witness_UpdateEatsStripesAndStashesTheRest_direct :
    32 ≤ (fresh 0x10000000000000020#66 (bytesA 0 32)).dinq.length ∧
    32 ≤ (fresh 0x10000000000000020#66 (bytesA 0 32)).bufferLen.toNat + 32 ∧
    0 = (if 0 < (fresh 0x10000000000000020#66 (bytesA 0 32)).bufferLen.toNat
      then 32 - (fresh 0x10000000000000020#66 (bytesA 0 32)).bufferLen.toNat else 0) := by decide
theorem witness_UpdateNetEffectIsStripesAndTail : 0 ≤ State.reset.dinq.length ∧ 20 ≤ beforeWrap.dinq.length := by decide
theorem witness_OneByteUpdateIsTheSingleByteStep : (fresh 0x10000000000000001#66 [9#8]).dinq = 9#8 :: [] := by decide
theorem witness_UpdateIsRepeatedSingleByteSteps : 20 ≤ beforeWrap.dinq.length := by decide
theorem witness_DigestIsRepeatable :
    exec .digest State.reset = .next (State.reset.emit (digestValue State.reset)).retire ∧
    ∃ u, exec .digest (State.reset.emit (digestValue State.reset)).retire = .next u := ⟨rfl, _, rfl⟩
theorem witness_DigestReadsLanesOrSeedNotBoth :
    ({ State.reset with totalLen := 31#64 } : State).totalLen.toNat < 32 ∧
    32 ≤ ({ State.reset with totalLen := 32#64 } : State).totalLen.toNat := by decide

/-- The hardware-reset state with a stale byte, under another draw. -/
def stale : State := { State.reset with buffer := [(0, 0x61#8)], bufDraw := 1 }

theorem stale_sameStream : SameStream State.reset stale :=
  ⟨rfl, rfl, rfl, rfl, (validBuf_empty (s := State.reset) rfl).trans (validBuf_empty (s := stale) rfl).symm⟩
theorem witness_DigestIgnoresStaleBytes : State.reset.buffer ≠ stale.buffer ∧ SameStream State.reset stale :=
  ⟨by decide, stale_sameStream⟩
theorem beforeWrap_inv : beforeWrap.Inv := ⟨by decide, by decide, by decide⟩
theorem witness_StepKeepsTheInvariant : beforeWrap.Inv ∧ (nextOf (step beforeWrap)).isSome = true :=
  ⟨beforeWrap_inv, by decide⟩
theorem fresh_streamState (cw : CmdWord) (payload : List Byte) : StreamState (fresh cw payload) 0#64 [] :=
  ⟨rfl, rfl, rfl, validBuf_empty (s := fresh cw payload) rfl, rfl⟩
theorem fresh_streamState_rst (cw : CmdWord) (payload : List Byte) :
    StreamState (fresh cw payload).hostResetWithinStep 0#64 [] :=
  ⟨rfl, rfl, rfl, validBuf_empty (s := (fresh cw payload).hostResetWithinStep) rfl, rfl⟩
theorem witness_StepKeepsTheStreamView_rst :
    StreamState (fresh 0x30000000000000000#66 []).hostResetWithinStep 0#64 [] ∧
    (nextOf (step (fresh 0x30000000000000000#66 []).hostResetWithinStep)).isSome = true ∧
    (fresh 0x30000000000000000#66 []).hostResetWithinStep.rst = true := ⟨fresh_streamState_rst _ _, by decide, rfl⟩
theorem witness_StepKeepsTheStreamView_idle :
    StreamState State.reset 0xFFFFFFFFFFFFFFC5#64 [] ∧ step State.reset = .next State.reset ∧
    State.reset.rst = false ∧ State.reset.cmdq = [] :=
  ⟨⟨by decide, rfl, rfl, validBuf_empty (s := State.reset) rfl, by decide⟩, rfl, rfl, rfl⟩
theorem witness_StepKeepsTheStreamView_reset :
    StreamState (fresh 7#66 []) 0#64 [] ∧ (nextOf (step (fresh 7#66 []))).isSome = true ∧
    (fresh 7#66 []).rst = false ∧ (fresh 7#66 []).cmdq = 7#66 :: [] ∧ decode 7#66 = .instr (.reset 7#64) :=
  ⟨fresh_streamState _ _, by decide, rfl, rfl, by decide⟩
theorem witness_StepKeepsTheStreamView_update :
    StreamState (fresh 0x10000000000000020#66 (bytesA 0 32)) 0#64 [] ∧
    (nextOf (step (fresh 0x10000000000000020#66 (bytesA 0 32)))).isSome = true ∧
    (fresh 0x10000000000000020#66 (bytesA 0 32)).rst = false ∧
    (fresh 0x10000000000000020#66 (bytesA 0 32)).cmdq = 0x10000000000000020#66 :: [] ∧
    decode 0x10000000000000020#66 = .instr (.update 32) ∧
    32 ≤ (fresh 0x10000000000000020#66 (bytesA 0 32)).dinq.length :=
  ⟨fresh_streamState _ _, by decide, rfl, rfl, by decide, by decide⟩
theorem witness_StepKeepsTheStreamView_wait :
    StreamState (fresh 0x10000000000000020#66 (bytesA 0 31)) 0#64 [] ∧
    (nextOf (step (fresh 0x10000000000000020#66 (bytesA 0 31)))).isSome = true ∧
    (fresh 0x10000000000000020#66 (bytesA 0 31)).rst = false ∧
    (fresh 0x10000000000000020#66 (bytesA 0 31)).cmdq = 0x10000000000000020#66 :: [] ∧
    decode 0x10000000000000020#66 = .instr (.update 32) ∧
    (fresh 0x10000000000000020#66 (bytesA 0 31)).dinq.length < 32 :=
  ⟨fresh_streamState _ _, by decide, rfl, rfl, by decide, by decide⟩
theorem witness_StepKeepsTheStreamView_digest :
    StreamState (fresh 0x20000000000000000#66 []) 0#64 [] ∧
    (nextOf (step (fresh 0x20000000000000000#66 []))).isSome = true ∧
    (fresh 0x20000000000000000#66 []).rst = false ∧
    (fresh 0x20000000000000000#66 []).cmdq = 0x20000000000000000#66 :: [] ∧
    decode 0x20000000000000000#66 = .instr .digest := ⟨fresh_streamState _ _, by decide, rfl, rfl, by decide⟩
theorem witness_UpdateExtendsTheStream :
    StreamState (fresh 0x10000000000000020#66 (bytesA 0 32)) 0#64 [] ∧
    32 ≤ (fresh 0x10000000000000020#66 (bytesA 0 32)).dinq.length := ⟨fresh_streamState _ _, by decide⟩
theorem witness_DigestOfAStreamIsXxh64 : StreamState (fresh 0x20000000000000000#66 []) 0#64 [] :=
  fresh_streamState _ _
theorem witness_CommandSequencesReturnXxh64Digests :
    StreamState ({ fresh 0#66 [] with cmdq := [] } : State) 0#64 [] ∧
    ({ fresh 0#66 [] with cmdq := [] } : State).rst = false ∧ ({ fresh 0#66 [] with cmdq := [] } : State).cmdq = [] ∧
    ({ fresh 0#66 [] with cmdq := [] } : State).dinq = [] ∧
    ∀ c ∈ [Command.digest, .update [1#8], .reset 3#64], c.instr.wf = true :=
  ⟨⟨rfl, rfl, rfl, validBuf_empty (s := ({ fresh 0#66 [] with cmdq := [] } : State)) rfl, rfl⟩, rfl, rfl, rfl,
    by decide⟩
theorem witness_ChunkingDoesNotChangeTheDigest :
    State.reset.rst = false ∧ State.reset.cmdq = [] ∧ State.reset.dinq = [] ∧
    [[1#8], [], bytesA 0 15].flatten.length < 2 ^ 64 := by decide
theorem witness_HiddenStateIsNeverObserved_next :
    SameView State.reset stale ∧ step State.reset = .next State.reset :=
  ⟨⟨stale_sameStream, rfl, rfl, rfl, rfl⟩, rfl⟩
theorem witness_HiddenStateIsNeverObserved_refused :
    SameView (fresh 0x30000000000000000#66 []) (fresh 0x30000000000000000#66 []) ∧
    step (fresh 0x30000000000000000#66 []) = .refused .reservedOpcode :=
  ⟨⟨⟨rfl, rfl, rfl, rfl, rfl⟩, rfl, rfl, rfl, rfl⟩, rfl⟩
theorem witness_BeatWidthDoesNotMatter : 0 < 1 := by decide
theorem witness_RotateLeftMovesBits : (1 ≤ 1 ∧ 1 ≤ 63) ∧ (1 ≤ 63 ∧ 63 ≤ 63) ∧ 63 < 64 := by decide
theorem witness_LanesEatTheirOwnWords : (bytesA 0 8).length = 8 ∧ (bytesA 24 8).length = 8 := by decide
theorem witness_MixingStepsAreInjective :
    round 1#64 2#64 = round 1#64 2#64 ∧ mergeRound 1#64 2#64 = mergeRound 1#64 2#64 ∧
    tail8 1#64 2#64 = tail8 1#64 2#64 ∧ tail4 1#64 2#32 = tail4 1#64 2#32 ∧
    tail1 1#64 2#8 = tail1 1#64 2#8 := by decide
theorem witness_ShortMessagesSeparateAllSeeds : (bytesA 0 31).length < 32 ∧ (0#64 : Word) ≠ 1#64 := by decide
/-- Each kind of tail word at the two ends of its range: 8-byte words first after a stripe and last, the 4-byte word with
no byte and with three bytes after it, single bytes first and last. -/
theorem witness_ChangingOneTailWordAlwaysShows :
    ((bytesA 1 8).length = (bytesA 2 8).length ∧ bytesA 1 8 ≠ bytesA 2 8) ∧
    ((bytesA 1 8).length = 8 ∧ (bytesA 0 32).length % 8 = 0 ∧
      32 * ((bytesA 0 32 ++ bytesA 1 8 ++ bytesA 0 23).length / 32) ≤ (bytesA 0 32).length) ∧
    ((bytesA 0 16).length % 8 = 0 ∧
      32 * ((bytesA 0 16 ++ bytesA 1 8 ++ bytesA 0 7).length / 32) ≤ (bytesA 0 16).length) ∧
    ((bytesA 1 4).length = (bytesA 2 4).length ∧ bytesA 1 4 ≠ bytesA 2 4) ∧
    ((bytesA 1 4).length = 4 ∧ (bytesA 0 8).length % 8 = 0 ∧ (bytesA 0 3).length < 4 ∧ (bytesA 0 0).length < 4) ∧
    ((bytesA 1 1).length = (bytesA 2 1).length ∧ bytesA 1 1 ≠ bytesA 2 1) ∧
    ((bytesA 1 1).length = 1 ∧ (bytesA 0 2).length < (bytesA 0 4 ++ bytesA 1 1 ++ bytesA 0 2).length % 4 ∧
      (bytesA 0 0).length < (bytesA 0 32 ++ bytesA 1 1 ++ bytesA 0 0).length % 4) := by decide
theorem witness_MixingFunctionsFollowTheirFormulas :
    ∃ h1 h2 h3 h4 : Word, h1 = 1#64 ^^^ (1#64 >>> 33) ∧ h2 = h1 * 0xC2B2AE3D27D4EB4F#64 ∧
      h3 = h2 ^^^ (h2 >>> 29) ∧ h4 = h3 * 0x165667B19E3779F9#64 := ⟨_, _, _, _, rfl, rfl, rfl, rfl⟩
theorem witness_ReferenceVectorsHold :
    (14, 0#64, 0xCFFA8DB881BC3A3D#64) ∈ [(1, 0#64, 0x4FCE394CC88952D8#64), (14, 0#64, 0xCFFA8DB881BC3A3D#64)] ∧
    State.reset.rst = false ∧ State.reset.cmdq = [] ∧ State.reset.dinq = [] := by decide
/-- V1.1, the first bytes of the test buffer, and its pieces. -/
theorem test_testBuffer : testBuffer 4 = [0x9E#8, 0xFF#8, 0x1F#8, 0x4B#8] ∧
    piecesOf 3 (testBuffer 4) = [[0x9E#8, 0xFF#8, 0x1F#8], [0x4B#8]] := by decide
theorem witness_HostInputsKeepTheHasherState :
    State.reset.doutq = [] ∧ ({ State.reset with doutq := [5#64] } : State).doutq = 5#64 :: [] := by decide
theorem witness_HardwareResetIsImmediate : decode 0x20000000000000000#66 = .instr .digest := by decide
/-- 70_reset_and_hazards.md R281: after the reset no old digest is left, and a new command stays. -/
theorem test_hostReset_is_immediate :
    ({ fresh 0x20000000000000000#66 [1#8] with doutq := [5#64] } : State).hostReset.hostTakeDigest.1 = none ∧
    ((fresh 0x20000000000000000#66 [1#8]).hostReset.hostCommand 7#66).cmdq = [7#66] := by decide

end Sys2Proof.Tests
end

section
/-! PROOFS. The encoding (30_encoding.md): a word as its two fields, the words each row selects, the pseudo-instructions. -/

namespace Sys2Proof

/-! ### A word and its two fields -/

@[simp] theorem cmdWord_opOf_argOf (cw : CmdWord) : cmdWord (opOf cw) (argOf cw) = cw := by
  apply BitVec.eq_of_toNat_eq
  rw [cmdWord_toNat, opOf_toNat, argOf_toNat]
  omega

@[simp] theorem opOf_cmdWord (op : BitVec 2) (arg : Word) : opOf (cmdWord op arg) = op := by
  have := arg.isLt
  rw [opOf_eq_iff, cmdWord_toNat]
  omega

@[simp] theorem argOf_cmdWord (op : BitVec 2) (arg : Word) : argOf (cmdWord op arg) = arg := by
  have := arg.isLt
  rw [argOf_eq_iff, cmdWord_toNat]
  omega

theorem argOf_eq_ofNat (cw : CmdWord) : argOf cw = BitVec.ofNat 64 cw.toNat := by
  rw [argOf_eq_iff, BitVec.toNat_ofNat]

theorem cmdWord_and (op op' : BitVec 2) (arg arg' : Word) :
    cmdWord op arg &&& cmdWord op' arg' = cmdWord (op &&& op') (arg &&& arg') :=
  BitVec.and_append

/-! ### Masks -/

/-- The mask of RESET and UPDATE keeps the `op` field and clears the operand. -/
theorem and_opMask (cw : CmdWord) : cw &&& 0x30000000000000000#66 = cmdWord (opOf cw) 0#64 := by
  calc cw &&& 0x30000000000000000#66
      = cmdWord (opOf cw) (argOf cw) &&& cmdWord (BitVec.allOnes 2) 0#64 := by rw [cmdWord_opOf_argOf]; rfl
    _ = cmdWord (opOf cw) 0#64 := by rw [cmdWord_and, BitVec.and_allOnes, BitVec.and_zero]

theorem and_opMask_eq_iff (cw : CmdWord) (op : BitVec 2) :
    cw &&& 0x30000000000000000#66 = cmdWord op 0#64 ↔ opOf cw = op := by
  rw [and_opMask]
  exact ⟨fun h => by simpa using congrArg opOf h, fun h => by rw [h]⟩

/-- The mask of DIGEST keeps the whole word. -/
theorem and_wordMask (cw : CmdWord) : cw &&& 0x3FFFFFFFFFFFFFFFF#66 = cw := BitVec.and_allOnes

/-! ### Decoding by the `op` field -/

theorem decode_of_opOf_zero {cw : CmdWord} (h : opOf cw = 0#2) : decode cw = .instr (.reset (argOf cw)) := by
  simp [decode, h]

theorem decode_of_opOf_one {cw : CmdWord} (h : opOf cw = 1#2) : decode cw = .instr (.update (argOf cw).toNat) := by
  simp [decode, h]

theorem decode_encode_digest : decode (encode .digest) = .instr .digest := by decide

/-- What matches no row is reserved (30_encoding.md R105, R110). -/
theorem decode_reserved_of_no_row {cw : CmdWord} (h0 : opOf cw ≠ 0#2) (h1 : opOf cw ≠ 1#2)
    (h2 : cw ≠ encode .digest) : ∃ r, decode cw = .reserved r := by
  rcases decode_cases cw with ⟨hlt, -⟩ | ⟨hge, hlt, -⟩ | ⟨heq, -⟩ | ⟨-, -, hd⟩ | ⟨-, hd⟩
  · exact absurd ((opOf_eq_iff cw 0#2).2 (Nat.div_eq_of_lt hlt)) h0
  · exact absurd ((opOf_eq_iff cw 1#2).2 (show cw.toNat / 2 ^ 64 = 1 by omega)) h1
  · exact absurd (BitVec.eq_of_toNat_eq heq) h2
  · exact ⟨_, hd⟩
  · exact ⟨_, hd⟩

/-- Settles O1: masking a word is reading its `op` field, or for DIGEST the whole word. -/
theorem rowsSelectByMaskAndMatch : Obligations.RowsSelectByMaskAndMatch := by
  intro cw
  refine ⟨fun h => ?reset, fun h => ?update, fun h => ?digest, fun h0 h1 h2 => ?reserved⟩
  case reset =>
    rw [decode_of_opOf_zero ((and_opMask_eq_iff cw 0#2).1 h), argOf_eq_ofNat]
  case update =>
    rw [decode_of_opOf_one ((and_opMask_eq_iff cw 1#2).1 h), argOf_toNat]
  case digest =>
    rw [and_wordMask] at h
    rw [h]
    exact decode_encode_digest
  case reserved =>
    rw [and_wordMask] at h2
    exact decode_reserved_of_no_row (mt (and_opMask_eq_iff cw 0#2).2 h0) (mt (and_opMask_eq_iff cw 1#2).2 h1) h2

/-! ### The words that decode -/

/-- A word that decodes is the word of its command, and the command is one that a word can express
(30_encoding.md R113). -/
theorem wf_and_encode_of_decode {cw : CmdWord} {i : Instr} (h : decode cw = .instr i) :
    i.wf = true ∧ encode i = cw := by
  have hcw := cmdWord_opOf_argOf cw
  rcases decode_cases cw with ⟨hlt, hd⟩ | ⟨hge, hlt, hd⟩ | ⟨heq, hd⟩ | ⟨-, -, hd⟩ | ⟨-, hd⟩ <;>
    rw [hd] at h <;> cases h
  · have hop : opOf cw = 0#2 := (opOf_eq_iff cw 0#2).2 (Nat.div_eq_of_lt hlt)
    exact ⟨rfl, by rw [encode, ← hop, hcw]⟩
  · have hop : opOf cw = 1#2 := (opOf_eq_iff cw 1#2).2 (show cw.toNat / 2 ^ 64 = 1 by omega)
    exact ⟨decide_eq_true (argOf cw).isLt, by rw [encode, BitVec.ofNat_toNat, BitVec.setWidth_eq, ← hop, hcw]⟩
  · exact ⟨rfl, BitVec.eq_of_toNat_eq heq.symm⟩

/-- Settles O6: a word that decodes is the word of its command, and there are three commands. -/
theorem pseudoInstructionsExpand : Obligations.PseudoInstructionsExpand := by
  refine ⟨fun bytes seed => ⟨rfl, rfl⟩, rfl, rfl, fun cw i h => ?_⟩
  obtain ⟨hwf, hcw⟩ := wf_and_encode_of_decode h
  cases i with
  | reset seed => exact .inl ⟨seed, hcw.symm⟩
  | update len => exact .inr (.inl ⟨len, of_decide_eq_true hwf, hcw.symm⟩)
  | digest => exact .inr (.inr hcw.symm)

end Sys2Proof
end

section
/-! PROOFS. The stripe-eat and the formulas of the mixing functions (40_arithmetic_and_mixing.md sections 2 to 6). -/

namespace Sys2Proof.Machine

/-! ### The words of a stripe -/

/-- Word `i` is the 8 bytes after the first `8 * i` (20_memory.md R75). -/
theorem stripeWord_append {before w : List Byte} {i : Nat} (hb : before.length = 8 * i) (hw : w.length = 8)
    (rest : List Byte) : stripeWord (before ++ w ++ rest) i = le64 w := by
  rw [stripeWord, List.append_assoc, ← hb, List.drop_left, ← hw, List.take_left]

/-- Settles O43: word `i` of the stripe is its `i`-th 8 bytes, and lane `i` is the ROUND that takes it. -/
theorem lanesEatTheirOwnWords : Obligations.LanesEatTheirOwnWords := by
  intro l w1 w2 w3 w4 h1 h2 h3 h4
  have e1 : stripeWord (w1 ++ w2 ++ w3 ++ w4) 0 = le64 w1 := by
    simpa using stripeWord_append (before := []) rfl h1 (w2 ++ w3 ++ w4)
  have e2 : stripeWord (w1 ++ w2 ++ w3 ++ w4) 1 = le64 w2 := by
    simpa using stripeWord_append h1 h2 (w3 ++ w4)
  have e3 : stripeWord (w1 ++ w2 ++ w3 ++ w4) 2 = le64 w3 :=
    stripeWord_append (by simp [h1, h2]) h3 w4
  have e4 : stripeWord (w1 ++ w2 ++ w3 ++ w4) 3 = le64 w4 := by
    simpa using stripeWord_append (before := w1 ++ w2 ++ w3) (by simp [h1, h2, h3]) h4 []
  rw [stripeEat, e1, e2, e3, e4]

/-! ### The mixing functions with their constants written out -/

/-- ROUND with an accumulator of 0, as MERGE_ROUND and TAIL8 use it (40_arithmetic_and_mixing.md R144, R146). -/
theorem round_zero (w : Word) : round 0 w = rotl64 (w * P2) 31 * P1 := by
  rw [round, zero_add]

theorem mergeRound_eq (h v : Word) : mergeRound h v = (h ^^^ rotl64 (v * P2) 31 * P1) * P1 + P4 := by
  rw [mergeRound, round_zero]

theorem tail8_eq (h k : Word) : tail8 h k = rotl64 (h ^^^ rotl64 (k * P2) 31 * P1) 27 * P1 + P4 := by
  rw [tail8, round_zero]

/-- Zero extension keeps the number (40_arithmetic_and_mixing.md R137). -/
theorem zext32_eq_ofNat (k : Word32) : zext32 k = BitVec.ofNat 64 k.toNat := (BitVec.ofNat_toNat 64 k).symm

theorem zext8_eq_ofNat (b : Byte) : zext8 b = BitVec.ofNat 64 b.toNat := (BitVec.ofNat_toNat 64 b).symm

/-- `TAIL4` takes its word in without ROUND (40_arithmetic_and_mixing.md R147). -/
theorem tail4_eq (h : Word) (k : Word32) :
    tail4 h k = rotl64 (h ^^^ BitVec.ofNat 64 k.toNat * P1) 23 * P2 + P3 := by
  rw [tail4, zext32_eq_ofNat]

theorem tail1_eq (h : Word) (b : Byte) :
    tail1 h b = rotl64 (h ^^^ BitVec.ofNat 64 b.toNat * P5) 11 * P1 := by
  rw [tail1, zext8_eq_ofNat]

/-- `AVALANCHE` one assignment at a time (40_arithmetic_and_mixing.md R149). -/
theorem avalanche_eq_of_steps {h h1 h2 h3 h4 : Word} (e1 : h1 = h ^^^ (h >>> 33)) (e2 : h2 = h1 * P2)
    (e3 : h3 = h2 ^^^ (h2 >>> 29)) (e4 : h4 = h3 * P3) : avalanche h = h4 ^^^ (h4 >>> 32) := by
  subst e1 e2 e3 e4
  rfl

/-- Settles O49: each function is its formula, and the literals of the formulas are the wired constants. -/
theorem mixingFunctionsFollowTheirFormulas : Obligations.MixingFunctionsFollowTheirFormulas := by
  refine ⟨?round, ?laneSum, mergeRound_eq, ?laneMerge, tail8_eq, tail4_eq, tail1_eq, ?avalanche⟩
  case round => exact fun acc w => rfl
  case laneSum => exact fun l => rfl
  case laneMerge => exact fun l => rfl
  case avalanche => exact fun h h1 h2 h3 h4 => avalanche_eq_of_steps

end Sys2Proof.Machine
end

section
/-! PROOFS. The RESET command (41_reset.md). -/

namespace Sys2Proof.Machine

/-- RESET starts the stream of its seed and completes, from every state (41_reset.md R160). -/
theorem exec_reset (sd : Word) (s : State) : exec (.reset sd) s = .next (s.startStream sd).retire := rfl

/-- The lanes of a seed with the prime constants written out (41_reset.md R160). -/
theorem lanesOfSeed_eq (sd : Word) :
    lanesOfSeed sd =
      { v1 := sd + 0x9E3779B185EBCA87#64 + 0xC2B2AE3D27D4EB4F#64
        v2 := sd + 0xC2B2AE3D27D4EB4F#64
        v3 := sd
        v4 := sd - 0x9E3779B185EBCA87#64 } := rfl

/-- RESET keeps every byte of the buffer, since it writes neither the buffer's data nor the draw (41_reset.md R162). -/
theorem State.startStream_retire_bufByte (s : State) (sd : Word) (a : Nat) :
    (s.startStream sd).retire.bufByte a = s.bufByte a :=
  State.bufByte_congr (by simp) (by simp) a

/-- Settles O16: the next state of RESET is known, and each of its fields is read off. -/
theorem resetWritesItsSevenElements : Obligations.ResetWritesItsSevenElements := by
  intro s sd
  have hlanes : (s.startStream sd).retire.lanes = lanesOfSeed sd := by simp
  rw [lanesOfSeed_eq] at hlanes
  refine ⟨(s.startStream sd).retire, exec_reset sd s, ?seed, ?v1, ?v2, ?v3, ?v4, ?totalLen, ?bufferLen,
    s.startStream_retire_bufByte sd, ?frame⟩
  case v1 | v2 | v3 | v4 => rw [hlanes]
  case seed | totalLen | bufferLen | frame => simp

end Sys2Proof.Machine
end

section
/-! PROOFS. The UPDATE command (42_update.md): its next state, the frame of every path, the buffer on each path. -/

namespace Sys2Proof.Machine

/-! ### Single bytes of the buffer and of a tail -/

/-- A write stores its bytes in order (20_memory.md R79). -/
theorem State.memWriteBuf_written (s : State) (a : Nat) {bs : List Byte} {i : Nat} (h : i < bs.length) :
    bs[i]? = some ((s.memWriteBuf a bs).bufByte (a + i)) := by
  rw [State.bufByte_memWriteBuf, dif_pos (by omega), List.getElem?_eq_getElem h]
  simp

/-- A write keeps every byte below and above it. -/
theorem State.memWriteBuf_outside (s : State) {a c : Nat} {bs : List Byte} (h : c < a ∨ a + bs.length ≤ c) :
    (s.memWriteBuf a bs).bufByte c = s.bufByte c := by
  rw [State.bufByte_memWriteBuf, dif_neg (by omega)]

/-- A buffer that holds another state's data with `bs` written reads as that state does after the write. -/
theorem State.bufByte_of_buffer_eq_writeBytes {s t : State} {c : Nat} {bs : List Byte}
    (hb : t.buffer = s.buffer.writeBytes c bs) (hd : t.bufDraw = s.bufDraw) (a : Nat) :
    t.bufByte a = (s.memWriteBuf c bs).bufByte a :=
  State.bufByte_congr (by rw [hb, State.memWriteBuf_buffer]) (by rw [hd, State.memWriteBuf_bufDraw]) a

/-- The tail of a slice `q[k .. n)` is the last bytes below `n`. -/
theorem getElem?_tailOf_slice {q : List Byte} {n k a : Nat} (hn : n ≤ q.length) (ha : a < (n - k) % 32) :
    (tailOf ((q.take n).drop k))[a]? = q[n - (n - k) % 32 + a]? := by
  have hlen : ((q.take n).drop k).length = n - k := by
    rw [List.length_drop, List.length_take, Nat.min_eq_left hn]
  rw [tailOf, hlen, List.drop_drop, List.getElem?_drop, List.getElem?_take_of_lt (by omega)]
  congr 1
  omega

/-! ### The next state of UPDATE and its frame -/

/-- What UPDATE leads to when its payload is on `din`. -/
def State.afterUpdate (s : State) (len : Nat) : State :=
  (updateBody (s.dinq.take len) (s.consumePayload len)).retire

/-- The payload is not part of the buffer. -/
@[simp] theorem State.consumePayload_validBuf (s : State) (len : Nat) :
    (s.consumePayload len).validBuf = s.validBuf :=
  State.validBuf_eq_of (by simp) (by simp) (by simp)

/-- UPDATE completes where its payload is present (60_exceptions.md R253). -/
theorem exec_update {s : State} {len : Nat} (h : len ≤ s.dinq.length) :
    exec (.update len) s = .next (s.afterUpdate len) :=
  execUpdate_run h

/-- The counter on every path (42_update.md R171). -/
theorem State.afterUpdate_totalLen {s : State} {len : Nat} (h : len ≤ s.dinq.length) :
    (s.afterUpdate len).totalLen = s.totalLen + BitVec.ofNat 64 len := by
  obtain ⟨htotal, -⟩ := updateBody_frame (s.dinq.take len) (s.consumePayload len)
  rw [State.afterUpdate, State.retire_totalLen, htotal, List.length_take, Nat.min_eq_left h,
    State.consumePayload_totalLen]

theorem State.afterUpdate_bufferLen {s : State} {len : Nat} (h : len ≤ s.dinq.length) :
    (s.afterUpdate len).bufferLen.toNat = (s.bufferLen.toNat + len) % 32 := by
  rw [State.afterUpdate, State.retire_bufferLen, updateBody_fillCount, List.length_take, Nat.min_eq_left h,
    State.consumePayload_bufferLen]

/-- What UPDATE does on every path outside the hasher: it takes its bytes and its word (42_update.md R170). -/
theorem State.afterUpdate_frame (s : State) (len : Nat) :
    (s.afterUpdate len).seed = s.seed ∧ (s.afterUpdate len).dinq = s.dinq.drop len ∧
      (s.afterUpdate len).cmdq = s.cmdq.tail ∧ (s.afterUpdate len).doutq = s.doutq ∧
      (s.afterUpdate len).rst = s.rst ∧ (s.afterUpdate len).bufDraw = s.bufDraw := by
  obtain ⟨-, hseed, hcmdq, hdinq, hdoutq, hrst, hdraw⟩ :=
    updateBody_frame (s.dinq.take len) (s.consumePayload len)
  simp [State.afterUpdate, hseed, hcmdq, hdinq, hdoutq, hrst, hdraw]

theorem State.afterUpdate_bufDraw (s : State) (len : Nat) : (s.afterUpdate len).bufDraw = s.bufDraw := by
  obtain ⟨-, -, -, -, -, hdraw⟩ := s.afterUpdate_frame len
  exact hdraw

/-- Settles O19: the frame of every path, and the counter as a number. -/
theorem updateCompletesAndCounts : Obligations.UpdateCompletesAndCounts := by
  intro s len hlen
  obtain ⟨hseed, hdinq, hcmdq, hdoutq, hrst, hdraw⟩ := s.afterUpdate_frame len
  refine ⟨s.afterUpdate len, exec_update hlen, ?_, hdinq, hcmdq, hseed, hdoutq, hrst, hdraw⟩
  rw [State.afterUpdate_totalLen hlen, BitVec.toNat_add, BitVec.toNat_ofNat, Nat.add_mod_mod]

/-! ### The append path -/

/-- Phase U2 changes no lane and writes the payload at `buffer_len` (42_update.md R172). -/
theorem State.afterUpdate_of_append {s : State} {len : Nat} (h : len ≤ s.dinq.length)
    (hlt : s.bufferLen.toNat + len < 32) :
    (s.afterUpdate len).lanes = s.lanes ∧
      (s.afterUpdate len).buffer = s.buffer.writeBytes s.bufferLen.toNat (s.dinq.take len) := by
  rw [State.afterUpdate, updateBody_append (by simpa [h] using hlt)]
  simp

/-- Settles O20: the buffer after UPDATE is the buffer with the payload written at `buffer_len`. -/
theorem updateAppendsAShortPayload : Obligations.UpdateAppendsAShortPayload := by
  intro s len hlen hlt
  obtain ⟨hseed, hchannels⟩ := s.afterUpdate_frame len
  obtain ⟨hlanes, hbuffer⟩ := State.afterUpdate_of_append hlen hlt
  have hbyte := State.bufByte_of_buffer_eq_writeBytes hbuffer (s.afterUpdate_bufDraw len)
  have hwidth : (s.dinq.take len).length = len := by simp [hlen]
  refine ⟨s.afterUpdate len, exec_update hlen, hlanes, hseed, ?fill, ?written, ?kept, hchannels⟩
  case fill => rw [State.afterUpdate_bufferLen hlen, Nat.mod_eq_of_lt hlt]
  case written =>
    intro i hi
    rw [hbyte, ← State.memWriteBuf_written _ _ (by omega), List.getElem?_take_of_lt hi]
  case kept =>
    intro a ha
    rw [hbyte, State.memWriteBuf_outside s (by omega)]

/-! ### The fill and direct paths -/

/-- How many payload bytes phase U3 takes to complete a stripe: none for an empty buffer (42_update.md R173). -/
def State.fillCount (s : State) : Nat := if 0 < s.bufferLen.toNat then 32 - s.bufferLen.toNat else 0

theorem State.fillCount_of_holds {s : State} (h : 0 < s.bufferLen.toNat) : s.fillCount = 32 - s.bufferLen.toNat :=
  if_pos h

theorem State.fillCount_of_empty {s : State} (h : s.bufferLen.toNat = 0) : s.fillCount = 0 :=
  if_neg (by omega)

section Stripes

variable {s : State} {len : Nat} (h : len ≤ s.dinq.length) (h32 : 32 ≤ s.bufferLen.toNat + len)

include h32

theorem State.fillCount_le : s.fillCount ≤ len := by
  rw [State.fillCount]
  split <;> omega

include h

/-- Phase U3 on a buffer that holds bytes, with phases U4 and U5 (42_update.md R173, R174, R175). -/
theorem State.afterUpdate_of_holds (hb : 0 < s.bufferLen.toNat) :
    (s.afterUpdate len).lanes =
        eatAll (stripeEat s.lanes (s.validBuf ++ s.dinq.take s.fillCount)) ((s.dinq.take len).drop s.fillCount) ∧
      (s.afterUpdate len).buffer =
        (s.buffer.writeBytes s.bufferLen.toNat (s.dinq.take s.fillCount)).writeBytes 0
          (tailOf ((s.dinq.take len).drop s.fillCount)) := by
  have htake : (s.dinq.take len).take s.fillCount = s.dinq.take s.fillCount := by
    rw [List.take_take, Nat.min_eq_left (State.fillCount_le h32)]
  rw [State.afterUpdate, updateBody_fill (s := s.consumePayload len) hb (by simpa [h] using h32), ← htake,
    State.fillCount_of_holds hb]
  simp

/-- Phases U4 and U5 on an empty buffer, which is never eaten (42_update.md R173, R174, R175). -/
theorem State.afterUpdate_of_empty (hb : s.bufferLen.toNat = 0) :
    (s.afterUpdate len).lanes = eatAll s.lanes (s.dinq.take len) ∧
      (s.afterUpdate len).buffer = s.buffer.writeBytes 0 (tailOf (s.dinq.take len)) := by
  rw [State.afterUpdate, updateBody_direct (s := s.consumePayload len) hb (by rw [List.length_take]; omega)]
  exact ⟨rfl, rfl⟩

/-- The two writes to the buffer: phase U3's, of no byte where the buffer is empty, and phase U5's. -/
theorem State.afterUpdate_bufByte_of_stripes (a : Nat) :
    (s.afterUpdate len).bufByte a =
      ((s.memWriteBuf s.bufferLen.toNat (s.dinq.take s.fillCount)).memWriteBuf 0
        (tailOf ((s.dinq.take len).drop s.fillCount))).bufByte a := by
  have hbuffer : (s.afterUpdate len).buffer =
      (s.memWriteBuf s.bufferLen.toNat (s.dinq.take s.fillCount)).buffer.writeBytes 0
        (tailOf ((s.dinq.take len).drop s.fillCount)) := by
    rw [State.memWriteBuf_buffer]
    rcases Nat.eq_zero_or_pos s.bufferLen.toNat with hb | hb
    · obtain ⟨-, hbuffer⟩ := State.afterUpdate_of_empty h h32 hb
      rw [hbuffer, State.fillCount_of_empty hb]
      rfl
    · obtain ⟨-, hbuffer⟩ := State.afterUpdate_of_holds h h32 hb
      exact hbuffer
  refine State.bufByte_of_buffer_eq_writeBytes hbuffer ?_ a
  rw [State.afterUpdate_bufDraw, State.memWriteBuf_bufDraw]

theorem State.afterUpdate_bufferLen_of_stripes :
    (s.afterUpdate len).bufferLen.toNat = (len - s.fillCount) % 32 := by
  have hlt := s.bufferLen.isLt
  rw [State.afterUpdate_bufferLen h, State.fillCount]
  split <;> omega

/-- Phase U5 stashes the last bytes of the payload at offset 0 (42_update.md R175). -/
theorem State.afterUpdate_bufByte_stashed {a : Nat} (ha : a < (len - s.fillCount) % 32) :
    s.dinq[len - (len - s.fillCount) % 32 + a]? = some ((s.afterUpdate len).bufByte a) := by
  have hwidth : (tailOf ((s.dinq.take len).drop s.fillCount)).length = (len - s.fillCount) % 32 := by simp [h]
  rw [State.afterUpdate_bufByte_of_stripes h h32, ← getElem?_tailOf_slice h ha,
    State.memWriteBuf_written _ 0 (by omega), Nat.zero_add]

/-- Above the stash the buffer is as phase U3 left it (42_update.md R175). -/
theorem State.afterUpdate_bufByte_above_stash {a : Nat} (ha : (len - s.fillCount) % 32 ≤ a) :
    (s.afterUpdate len).bufByte a = (s.memWriteBuf s.bufferLen.toNat (s.dinq.take s.fillCount)).bufByte a := by
  rw [State.afterUpdate_bufByte_of_stripes h h32, State.memWriteBuf_outside _ (.inr (by simpa [h] using ha))]

theorem State.length_take_fillCount : (s.dinq.take s.fillCount).length = s.fillCount := by
  rw [List.length_take, Nat.min_eq_left ((State.fillCount_le h32).trans h)]

end Stripes

/-- Settles O21: phase U5 writes below the new `buffer_len`; above it stand the bytes of phase U3 or those of before. -/
theorem updateEatsStripesAndStashesTheRest : Obligations.UpdateEatsStripesAndStashesTheRest := by
  intro s len k hlen h32 hk
  obtain rfl : k = s.fillCount := hk
  have hfill := State.length_take_fillCount hlen h32
  refine ⟨s.afterUpdate len, exec_update hlen, fun hb => (State.afterUpdate_of_holds hlen h32 hb).1,
    fun hb => (State.afterUpdate_of_empty hlen h32 hb).1, State.afterUpdate_bufferLen_of_stripes hlen h32, ?stashed,
    ?filled, ?kept, s.afterUpdate_frame len⟩ <;> rw [State.afterUpdate_bufferLen_of_stripes hlen h32]
  case stashed => exact fun a ha => State.afterUpdate_bufByte_stashed hlen h32 ha
  case filled =>
    intro a ha hb hlow hhigh
    obtain ⟨i, rfl⟩ := Nat.exists_eq_add_of_le hlow
    have hi : i < s.fillCount := by rw [State.fillCount_of_holds hb]; omega
    rw [State.afterUpdate_bufByte_above_stash hlen h32 ha, ← State.memWriteBuf_written s _ (by omega),
      List.getElem?_take_of_lt hi, Nat.add_sub_cancel_left]
  case kept =>
    intro a ha hplace
    rw [State.afterUpdate_bufByte_above_stash hlen h32 ha, State.memWriteBuf_outside s]
    rw [hfill, State.fillCount]
    split <;> omega

end Sys2Proof.Machine
end

section
/-! PROOFS. DIGEST (43_digest.md): its phases in closed form, and what the command writes. -/

namespace Sys2Proof.Machine

theorem exec_digest (s : State) : exec .digest s = .next (s.emit (digestValue s)).retire := rfl

theorem State.emit_retire (s : State) (d : Word) :
    (s.emit d).retire = { s with doutq := s.doutq ++ [d], cmdq := s.cmdq.tail } := rfl

/-- Phase F1 by the wrapped counter (43_digest.md R201, R202, R211). -/
theorem digestStart_eq (s : State) :
    digestStart s = if s.totalLen.toNat < 32 then s.seed + P5 else laneMerge s.lanes := by
  simp only [digestStart, State.shortInput_iff]

/-- Phases F1 to F6: the loops of the tail are the fold over the valid bytes (43_digest.md R200). -/
theorem digestValue_eq (s : State) :
    digestValue s = avalanche (tailFold
      ((if s.totalLen.toNat < 32 then s.seed + P5 else laneMerge s.lanes) + s.totalLen) s.validBuf) := by
  rw [digestValue, digestTail_eq, digestLength, digestStart_eq]

/-- Settles O26: DIGEST emits its value and retires, and its value is the avalanche of the folded tail. -/
theorem digestEmitsTheRunningHash : Obligations.DigestEmitsTheRunningHash := by
  intro s
  rw [exec_digest, State.emit_retire, digestValue_eq, P5]

end Sys2Proof.Machine
end

section
/-! PROOFS. The stream view under RESET, UPDATE and DIGEST, and the digest of the empty input
(10_state.md R41; 44_compositions_and_laws.md R234, R236, R239). -/

namespace Sys2Proof.Machine

/-! ### How the commands act on the stream view -/

/-- RESET starts the empty stream of its seed, from every state (41_reset.md R160, R163). -/
theorem State.startStream_retire_streamState (s : State) (sd : Word) :
    StreamState (s.startStream sd).retire sd [] where
  seed_eq := by simp
  total_eq := by simp
  fill_eq := by simp
  bytes_eq := validBuf_empty (by simp)
  lanes_eq := by rw [State.retire_lanes, State.startStream_lanes, eatAll_of_lt (by decide)]

/-- The net effect of UPDATE on the lanes and the valid bytes, in the state after the command (42_update.md R177). -/
theorem State.afterUpdate_net (s : State) (len : Nat) :
    (s.afterUpdate len).lanes = eatAll s.lanes (s.validBuf ++ s.dinq.take len) ∧
      (s.afterUpdate len).validBuf = tailOf (s.validBuf ++ s.dinq.take len) := by
  obtain ⟨hlanes, hbytes⟩ := updateBody_net (s.dinq.take len) (s.consumePayload len)
  rw [State.consumePayload_validBuf] at hlanes hbytes
  rw [State.consumePayload_lanes] at hlanes
  refine ⟨hlanes, Eq.trans (State.validBuf_eq_of ?_ ?_ ?_) hbytes⟩ <;> simp [State.afterUpdate]

/-- UPDATE appends its payload to the stream (44_compositions_and_laws.md R236). -/
theorem StreamState.afterUpdate {s : State} {sd : Word} {m : List Byte} {len : Nat} (h : StreamState s sd m)
    (hlen : len ≤ s.dinq.length) : StreamState (s.afterUpdate len) sd (m ++ s.dinq.take len) := by
  have hlength : (m ++ s.dinq.take len).length = m.length + len := by
    rw [List.length_append, List.length_take, Nat.min_eq_left hlen]
  obtain ⟨hseed, -⟩ := s.afterUpdate_frame len
  obtain ⟨hlanes, hbytes⟩ := s.afterUpdate_net len
  refine ⟨hseed.trans h.seed_eq, ?total, ?fill, ?bytes, ?lanes⟩
  case total => rw [State.afterUpdate_totalLen hlen, h.total_eq, hlength, BitVec.ofNat_add]
  case fill => rw [State.afterUpdate_bufferLen hlen, h.fill_eq, hlength, Nat.mod_add_mod]
  case bytes => rw [hbytes, h.bytes_eq, ← tailOf_append]
  case lanes => rw [hlanes, h.bytes_eq, h.lanes_eq, ← eatAll_append]

/-- The running hash of a stream is its XXH64, the counter wrapped or not (44_compositions_and_laws.md R234). -/
theorem StreamState.digestValue_eq {s : State} {sd : Word} {m : List Byte} (h : StreamState s sd m) :
    digestValue s = xxh64 sd m := by
  rw [Machine.digestValue_eq, xxh64, xxh64Start, h.seed_eq, h.total_eq, h.bytes_eq, h.lanes_eq, BitVec.toNat_ofNat]

/-! ### The empty input -/

/-- No byte: the short start, a length of 0 and no tail (44_compositions_and_laws.md R239). -/
theorem xxh64_nil (sd : Word) : xxh64 sd [] = avalanche (sd + P5) := by
  have hstart : xxh64Start sd [] = sd + P5 := if_pos (by decide)
  have htail : ∀ h : Word, tailFold h (tailOf []) = h := fun _ => rfl
  rw [xxh64, hstart, htail, List.length_nil, BitVec.add_zero]

/-- The empty message under seed 0 (44_compositions_and_laws.md R239). -/
theorem xxh64_zero_nil : xxh64 0 [] = 0xEF46DB3751D8E999#64 := by
  rw [xxh64_nil]
  decide

/-- Settles O27: RESET leads to the empty stream, UPDATE of no bytes stays there, and DIGEST emits its XXH64. -/
theorem digestOfTheEmptyInput : Obligations.DigestOfTheEmptyInput := by
  intro s sd
  have hreset := s.startStream_retire_streamState sd
  have hupdate := hreset.afterUpdate (Nat.zero_le _)
  obtain ⟨-, -, -, hdoutq, -⟩ := (s.startStream sd).retire.afterUpdate_frame 0
  have hvalue : xxh64 sd [] = avalanche (sd + 0x27D4EB2F165667C5#64) := xxh64_nil sd
  rw [add_zero, ← hvalue]
  refine ⟨⟨_, _, exec_reset sd s, exec_digest _, ?afterReset⟩,
    ⟨_, _, _, exec_reset sd s, exec_update (Nat.zero_le _), exec_digest _, ?afterUpdate⟩, rfl, xxh64_zero_nil⟩
  case afterReset => simp [hreset.digestValue_eq]
  case afterUpdate => simpa [hdoutq] using hupdate.digestValue_eq

end Sys2Proof.Machine
end

section
/-! PROOFS. Refusal (60_exceptions.md section 1): the words above `0x2_0000000000000000` are the reserved ones, and they
alone are refused. -/

namespace Sys2Proof

/-- The two reserved ranges together are everything above the word of DIGEST (30_encoding.md R110). -/
theorem decode_reserved_of_lt {cw : CmdWord} (h : 0x20000000000000000 < cw.toNat) : ∃ r, decode cw = .reserved r := by
  rcases decode_cases cw with ⟨hlt, -⟩ | ⟨-, hlt, -⟩ | ⟨heq, -⟩ | ⟨-, -, hd⟩ | ⟨-, hd⟩
  case inl | inr.inl | inr.inr.inl => omega
  case inr.inr.inr.inl | inr.inr.inr.inr => exact ⟨_, hd⟩

theorem decode_instr_of_le {cw : CmdWord} (h : cw.toNat ≤ 0x20000000000000000) : ∃ i, decode cw = .instr i := by
  rcases decode_cases cw with ⟨-, hd⟩ | ⟨-, -, hd⟩ | ⟨-, hd⟩ | ⟨hgt, -⟩ | ⟨hge, -⟩
  case inl | inr.inl | inr.inr.inl => exact ⟨_, hd⟩
  case inr.inr.inr.inl | inr.inr.inr.inr => omega

/-- Settles O11: the step refuses exactly the words that do not decode, and a refused step ends the run. -/
theorem onlyReservedWordsAreRefused : Obligations.OnlyReservedWordsAreRefused := by
  intro s cw rest hrst hcmdq
  refine ⟨fun hgt => ?reserved, fun hle => ?command⟩
  case reserved =>
    obtain ⟨r, hd⟩ := decode_reserved_of_lt hgt
    exact ⟨_, fun _ => Machine.run_refused (Machine.step_reserved hrst hcmdq hd)⟩
  case command =>
    obtain ⟨i, hd⟩ := decode_instr_of_le hle
    rw [Machine.step_instr hrst hcmdq hd]
    exact Machine.exec_next i s

end Sys2Proof
end

section
/-! PROOFS. Decoding and encoding undo each other, and the reserved ranges (30_encoding.md sections 2 and 4). -/

namespace Sys2Proof

/-- Settles O3: the two fields of a command's word are read back, and a well-formed length fits its field. -/
theorem encodeThenDecodeIsIdentity : Obligations.EncodeThenDecodeIsIdentity := by
  intro i hwf
  cases i with
  | reset seed => rw [encode, decode_of_opOf_zero (opOf_cmdWord _ _), argOf_cmdWord]
  | update len =>
    have hlen : len < 2 ^ 64 := of_decide_eq_true hwf
    rw [encode, decode_of_opOf_one (opOf_cmdWord _ _), argOf_cmdWord, BitVec.toNat_ofNat, Nat.mod_eq_of_lt hlen]
  | digest => exact decode_encode_digest

/-- Settles O4: the words that decode are the words of the well-formed commands. -/
theorem decodeThenEncodeIsIdentity : Obligations.DecodeThenEncodeIsIdentity :=
  fun _ _ h => wf_and_encode_of_decode h

/-- Settles O2: decoding goes by the value of the word, and the two ranges are its last two cases. -/
theorem reservedWordsAreTheTwoRanges : Obligations.ReservedWordsAreTheTwoRanges := by
  intro cw
  rcases decode_cases cw with ⟨hlt, hd⟩ | ⟨-, hlt, hd⟩ | ⟨heq, hd⟩ | ⟨hgt, hlt, hd⟩ | ⟨hge, hd⟩ <;>
    (rw [hd]; simp; omega)

/-- Settles O5: five closed words. -/
theorem sampleWordsDecode : Obligations.SampleWordsDecode := by
  refine ⟨?reset, ?update, decode_encode_digest, ?digestOperand, ?opcode⟩
  case reset | update | digestOperand | opcode => decide

/-- The table's word that decodes is the word that placing it puts on the channel (log entry 8). -/
theorem decode_wordAt {nbits w : Nat} {i : Instr} (h : decodeTableWord nbits w = some i) :
    decode (Machine.wordAt nbits w) = .instr i := by
  rw [decodeTableWord, tableWord] at h
  split at h
  case h_1 => exact nomatch h
  case h_2 cw hcw =>
    have hword : Machine.wordAt nbits w = cw := by
      split at hcw
      · exact Option.some.inj hcw
      · exact nomatch hcw
    rw [hword]
    split at h
    · rename_i j hd
      rw [hd, Option.some.inj h]
    · exact nomatch h

end Sys2Proof
end

section
/-! PROOFS. Everything a step can lead to, said once, and what follows from it for the channels and the seed
(20_memory.md section 5; 60_exceptions.md section 1; 70_reset_and_hazards.md section 3). -/

namespace Sys2Proof.Machine

/-- The next states of a step, case by case. -/
inductive StepsTo (s : State) : State → Prop where
  /-- `rst` falls within the step. -/
  | hardwareReset (hrst : s.rst = true) : StepsTo s s.hardwareReset
  | idle (hrst : s.rst = false) (hcmdq : s.cmdq = []) : StepsTo s s
  | reset {cw : CmdWord} {rest : List CmdWord} {sd : Word} (hrst : s.rst = false) (hcmdq : s.cmdq = cw :: rest)
    (hd : decode cw = .instr (.reset sd)) : StepsTo s (s.startStream sd).retire
  /-- UPDATE with its payload on `din`. -/
  | update {cw : CmdWord} {rest : List CmdWord} {len : Nat} (hrst : s.rst = false) (hcmdq : s.cmdq = cw :: rest)
    (hd : decode cw = .instr (.update len)) (hlen : len ≤ s.dinq.length) : StepsTo s (s.afterUpdate len)
  /-- UPDATE short of its payload. -/
  | wait {cw : CmdWord} {rest : List CmdWord} {len : Nat} (hrst : s.rst = false) (hcmdq : s.cmdq = cw :: rest)
    (hd : decode cw = .instr (.update len)) (hlen : s.dinq.length < len) : StepsTo s s
  | digest {cw : CmdWord} {rest : List CmdWord} (hrst : s.rst = false) (hcmdq : s.cmdq = cw :: rest)
    (hd : decode cw = .instr .digest) : StepsTo s (s.emit (digestValue s)).retire

/-- A step answers just the next states listed. -/
theorem step_eq_next_iff {s t : State} : step s = .next t ↔ StepsTo s t := by
  constructor
  case mp =>
    intro h
    cases hrst : s.rst with
    | true =>
      obtain rfl : s.hardwareReset = t := by simpa [step_rst hrst] using h
      exact .hardwareReset hrst
    | false =>
      obtain ⟨hcmdq, rfl⟩ | ⟨cw, rest, i, hcmdq, hd, he⟩ := step_cases hrst h
      · exact .idle hrst hcmdq
      · cases i with
        | reset sd =>
          obtain rfl := Host.Outcome.next.inj ((exec_reset sd s).symm.trans he)
          exact .reset hrst hcmdq hd
        | update len =>
          obtain ⟨hlen, rfl⟩ | ⟨hlen, rfl⟩ := execUpdate_cases he
          · exact .wait hrst hcmdq hd hlen
          · exact .update hrst hcmdq hd hlen
        | digest =>
          obtain rfl := Host.Outcome.next.inj ((exec_digest s).symm.trans he)
          exact .digest hrst hcmdq hd
  case mpr =>
    intro h
    cases h with
    | hardwareReset hrst => exact step_rst hrst
    | idle hrst hcmdq => exact step_idle hrst hcmdq
    | reset hrst hcmdq hd => exact step_instr hrst hcmdq hd
    | update hrst hcmdq hd hlen => exact (step_instr hrst hcmdq hd).trans (exec_update hlen)
    | wait hrst hcmdq hd hlen => exact (step_instr hrst hcmdq hd).trans (execUpdate_wait hlen)
    | digest hrst hcmdq hd => exact step_instr hrst hcmdq hd

/-- A step refuses a reserved word at the head of the command channel and nothing else (60_exceptions.md R252). -/
theorem step_refused_cases {s : State} {r : Refusal} (h : step s = .refused r) :
    ∃ cw rest res, s.rst = false ∧ s.cmdq = cw :: rest ∧ decode cw = .reserved res ∧ r = refusalOf res := by
  cases hrst : s.rst with
  | true => rw [step_rst hrst] at h; cases h
  | false =>
    cases hcmdq : s.cmdq with
    | nil => rw [step_idle hrst hcmdq] at h; cases h
    | cons cw rest =>
      cases hd : decode cw with
      | instr i =>
        obtain ⟨t, ht⟩ := exec_next i s
        rw [step_instr hrst hcmdq hd, ht] at h
        cases h
      | reserved res =>
        rw [step_reserved hrst hcmdq hd] at h
        cases h
        exact ⟨cw, rest, res, rfl, rfl, hd, rfl⟩

/-- Settles O9: the idle case of the step. -/
theorem idleCoreKeepsItsState : Obligations.IdleCoreKeepsItsState := fun _ => step_idle

/-- Settles O10: the word that decodes is the word of a well-formed command. -/
theorem stepRunsTheDecodedCommand : Obligations.StepRunsTheDecodedCommand :=
  fun _ _ _ _ hrst hcmdq hd => ⟨(wf_and_encode_of_decode hd).1, step_instr hrst hcmdq hd⟩

/-- Settles O12: placing puts the word at the head of the channel and takes `rst` away. -/
theorem placedWordRunsNext : Obligations.PlacedWordRunsNext :=
  fun s _ _ _ h => step_instr (State.loadWord_rst s _) (State.loadWord_cmdq s _) (decode_wordAt h)

/-- Settles O13: the channels after each case of a step. -/
theorem commandsCompleteOneAtATimeInOrder : Obligations.CommandsCompleteOneAtATimeInOrder := by
  intro s t hrst hs
  cases step_eq_next_iff.1 hs with
  | hardwareReset hrst' => exact nomatch hrst.symm.trans hrst'
  | idle _ hcmdq => exact .inr (.inl ⟨rfl, hcmdq⟩)
  | @reset cw rest sd _ hcmdq hd => exact .inl ⟨cw, rest, .reset sd, hcmdq, hd, by simp [hcmdq], by simp⟩
  | @update cw rest len _ hcmdq hd hlen =>
    obtain ⟨-, hdinq, hcmdq', -⟩ := s.afterUpdate_frame len
    exact .inl ⟨cw, rest, .update len, hcmdq, hd, by simp [hcmdq', hcmdq], hlen, hdinq⟩
  | @wait cw rest len _ hcmdq hd hlen => exact .inr (.inr ⟨rfl, cw, rest, len, hcmdq, hd, hlen⟩)
  | @digest cw rest _ hcmdq hd => exact .inl ⟨cw, rest, .digest, hcmdq, hd, by simp [hcmdq], by simp⟩

/-- The oldest word decodes to one command only. -/
theorem no_head_of_ne {s : State} {cw : CmdWord} {rest : List CmdWord} {i j : Instr} (hcmdq : s.cmdq = cw :: rest)
    (hd : decode cw = .instr i) (hij : i ≠ j) : ¬ ∃ cw rest, s.cmdq = cw :: rest ∧ decode cw = .instr j := by
  rintro ⟨cw', rest', hcmdq', hd'⟩
  obtain ⟨rfl, -⟩ := List.cons.inj (hcmdq.symm.trans hcmdq')
  rw [hd] at hd'
  exact hij (Decoded.instr.inj hd')

/-- Settles O14: the digest channel after each case of a step. -/
theorem onlyDigestPutsAValueOnDout : Obligations.OnlyDigestPutsAValueOnDout := by
  intro s t hrst hs
  cases step_eq_next_iff.1 hs with
  | hardwareReset hrst' => exact nomatch hrst.symm.trans hrst'
  | idle _ hcmdq => exact ⟨fun ⟨_, _, h, _⟩ => by simp [hcmdq] at h, fun _ => rfl⟩
  | reset _ hcmdq hd => exact ⟨fun h => absurd h (no_head_of_ne hcmdq hd nofun), fun _ => by simp⟩
  | @update _ _ len _ hcmdq hd hlen =>
    obtain ⟨-, -, -, hdoutq, -⟩ := s.afterUpdate_frame len
    exact ⟨fun h => absurd h (no_head_of_ne hcmdq hd nofun), fun _ => hdoutq⟩
  | wait _ hcmdq hd hlen => exact ⟨fun h => absurd h (no_head_of_ne hcmdq hd nofun), fun _ => rfl⟩
  | digest _ hcmdq hd => exact ⟨fun _ => ⟨digestValue s, by simp⟩, fun h => absurd ⟨_, _, hcmdq, hd⟩ h⟩

/-- Settles O15: no case of a step but RESET and hardware reset writes the seed. -/
theorem onlyResetChangesTheSeed : Obligations.OnlyResetChangesTheSeed := by
  intro s t hrst hno hs
  cases step_eq_next_iff.1 hs with
  | hardwareReset hrst' => exact nomatch hrst.symm.trans hrst'
  | idle => rfl
  | reset _ hcmdq hd => exact absurd ⟨_, _, _, hcmdq, hd⟩ hno
  | @update _ _ len =>
    obtain ⟨hseed, -⟩ := s.afterUpdate_frame len
    exact hseed
  | wait => rfl
  | digest => simp

/-- A state that steps to itself stays through a run of any length. -/
theorem run_of_step_self {s : State} (h : step s = .next s) (k : Nat) :
    Host.Core.run Sys2Proof.core k s = .next s := by
  induction k with
  | zero => rfl
  | succ k ih => rw [run_next h, ih]

/-- Settles O18: the waiting step leads to the same state, and so does every further one. -/
theorem updateWaitsForItsPayload : Obligations.UpdateWaitsForItsPayload :=
  fun _ _ hlen => ⟨execUpdate_wait hlen, fun _ _ hrst hcmdq hd =>
    run_of_step_self (step_eq_next_iff.2 (.wait hrst hcmdq hd hlen))⟩

end Sys2Proof.Machine
end

section
/-! PROOFS. States that agree on all that a digest reads: what keeps the agreement, and what DIGEST emits under it
(10_state.md R45; 43_digest.md sections 1 and 3; 41_reset.md R163). -/

namespace Sys2Proof.Machine

/-! ### Agreement on the stream -/

theorem SameStream.symm {s t : State} (h : SameStream s t) : SameStream t s :=
  ⟨h.lanes_eq.symm, h.seed_eq.symm, h.fill_eq.symm, h.total_eq.symm, h.bytes_eq.symm⟩

theorem SameStream.trans {s t u : State} (h : SameStream s t) (h' : SameStream t u) : SameStream s u :=
  ⟨h.lanes_eq.trans h'.lanes_eq, h.seed_eq.trans h'.seed_eq, h.fill_eq.trans h'.fill_eq,
    h.total_eq.trans h'.total_eq, h.bytes_eq.trans h'.bytes_eq⟩

/-- Taking payload bytes off the channel is no matter of the stream. -/
theorem State.consumePayload_sameStream (s : State) (len : Nat) : SameStream (s.consumePayload len) s :=
  ⟨by simp, by simp, by simp, by simp, by simp⟩

theorem State.retire_sameStream (s : State) : SameStream s.retire s :=
  ⟨by simp, by simp, by simp, by simp, State.validBuf_eq_of (by simp) (by simp) (by simp)⟩

/-- DIGEST keeps all that a digest reads (43_digest.md R208). -/
theorem State.emit_retire_sameStream (s : State) (d : Word) : SameStream (s.emit d).retire s :=
  ⟨by simp, by simp, by simp, by simp, State.validBuf_eq_of (by simp) (by simp) (by simp)⟩

/-- RESET makes any two states agree (41_reset.md R163). -/
theorem State.startStream_sameStream (s t : State) (sd : Word) : SameStream (s.startStream sd) (t.startStream sd) :=
  ⟨by simp, by simp, by simp, by simp, (validBuf_empty (by simp)).trans (validBuf_empty (by simp)).symm⟩

theorem State.hardwareReset_sameStream (s t : State) : SameStream s.hardwareReset t.hardwareReset :=
  ⟨by simp, by simp, by simp, by simp, (validBuf_empty (by simp)).trans (validBuf_empty (by simp)).symm⟩

/-- UPDATE reads no stale byte: its net effect is one of the lanes, the counters, the valid bytes and the payload. -/
theorem SameStream.updateBody {s t : State} (h : SameStream s t) (p : List Byte) :
    SameStream (updateBody p s) (updateBody p t) := by
  obtain ⟨hlanes, hbytes⟩ := updateBody_net p s
  obtain ⟨hlanes', hbytes'⟩ := updateBody_net p t
  obtain ⟨htotal, hseed, -⟩ := updateBody_frame p s
  obtain ⟨htotal', hseed', -⟩ := updateBody_frame p t
  refine ⟨?lanes, ?seed, ?fill, ?total, ?bytes⟩
  case lanes => rw [hlanes, hlanes', h.lanes_eq, h.bytes_eq]
  case seed => rw [hseed, hseed', h.seed_eq]
  case fill =>
    apply BitVec.eq_of_toNat_eq
    rw [updateBody_fillCount, updateBody_fillCount, h.fill_eq]
  case total => rw [htotal, htotal', h.total_eq]
  case bytes => rw [hbytes, hbytes', h.bytes_eq]

theorem State.afterUpdate_sameStream (s : State) (len : Nat) :
    SameStream (s.afterUpdate len) (updateBody (s.dinq.take len) s) :=
  (State.retire_sameStream _).trans ((s.consumePayload_sameStream len).updateBody _)

/-- The running hash depends on the stream alone (43_digest.md section 3). -/
theorem SameStream.digestValue_eq {s t : State} (h : SameStream s t) : digestValue s = digestValue t := by
  rw [Machine.digestValue_eq, Machine.digestValue_eq, h.total_eq, h.seed_eq, h.lanes_eq, h.bytes_eq]

/-- The stream view is one of what a digest reads. -/
theorem StreamState.of_sameStream {s t : State} {sd : Word} {m : List Byte} (h : StreamState t sd m)
    (e : SameStream s t) : StreamState s sd m where
  seed_eq := e.seed_eq.trans h.seed_eq
  total_eq := e.total_eq.trans h.total_eq
  fill_eq := (congrArg BitVec.toNat e.fill_eq).trans h.fill_eq
  bytes_eq := e.bytes_eq.trans h.bytes_eq
  lanes_eq := e.lanes_eq.trans h.lanes_eq

/-! ### What RESET forgets and what DIGEST reads -/

/-- Settles O17: both states are the empty stream of the seed. -/
theorem resetForgetsTheStream : Obligations.ResetForgetsTheStream := by
  intro s t s' t' sd hs ht
  obtain rfl := Host.Outcome.next.inj ((exec_reset sd s).symm.trans hs)
  obtain rfl := Host.Outcome.next.inj ((exec_reset sd t).symm.trans ht)
  exact ⟨((State.retire_sameStream _).trans (s.startStream_sameStream t sd)).trans (State.retire_sameStream _).symm,
    s.startStream_retire_streamState sd⟩

/-- Settles O30: DIGEST emits the running hash, which the two states share. -/
theorem digestIgnoresStaleBytes : Obligations.DigestIgnoresStaleBytes := by
  intro s t h
  refine ⟨digestValue s, exec_digest s, ?_⟩
  rw [h.digestValue_eq]
  exact exec_digest t

/-- Settles O28: the state after the first DIGEST has the running hash of the state before. -/
theorem digestIsRepeatable : Obligations.DigestIsRepeatable := by
  intro s t u hs ht
  obtain rfl := Host.Outcome.next.inj ((exec_digest s).symm.trans hs)
  obtain rfl := Host.Outcome.next.inj ((exec_digest _).symm.trans ht)
  refine ⟨digestValue s, by simp, ?_⟩
  simp [(s.emit_retire_sameStream (digestValue s)).digestValue_eq]

theorem exec_digest_doutq {s : State} {d : Word} (h : digestValue s = d) :
    ∃ t, exec .digest s = .next t ∧ t.doutq = s.doutq ++ [d] :=
  ⟨_, exec_digest s, by simp [h]⟩

/-- The short start reads no lane (43_digest.md R201). -/
theorem digestValue_with_lanes {s : State} (h : s.totalLen.toNat < 32) (l : Lanes) :
    digestValue { s with lanes := l } = digestValue s := by
  rw [digestValue_eq, digestValue_eq, if_pos h, if_pos h,
    State.validBuf_eq_of (s := { s with lanes := l }) (t := s) rfl rfl rfl]

/-- The merge path reads no seed (43_digest.md R202). -/
theorem digestValue_with_seed {s : State} (h : 32 ≤ s.totalLen.toNat) (sd : Word) :
    digestValue { s with seed := sd } = digestValue s := by
  rw [digestValue_eq, digestValue_eq, if_neg (by simpa using h), if_neg (by simpa using h),
    State.validBuf_eq_of (s := { s with seed := sd }) (t := s) rfl rfl rfl]

/-- Settles O29: the start of the running hash on each of its two paths. -/
theorem digestReadsLanesOrSeedNotBoth : Obligations.DigestReadsLanesOrSeedNotBoth := by
  intro s l sd
  refine ⟨digestValue s, _, exec_digest s, by simp, fun h => ?short, fun h => ?merge⟩
  case short => exact exec_digest_doutq (digestValue_with_lanes h l)
  case merge => exact exec_digest_doutq (digestValue_with_seed h sd)

end Sys2Proof.Machine
end

section
/-! PROOFS. UPDATE against the single-byte step (42_update.md R181), and UPDATE of no byte. -/

namespace Sys2Proof.Machine

/-- Settles O22: the net effect of the phases, read in the state after the command. -/
theorem updateNetEffectIsStripesAndTail : Obligations.UpdateNetEffectIsStripesAndTail :=
  fun s len hlen => ⟨s.afterUpdate len, exec_update hlen, s.afterUpdate_net len⟩

/-- UPDATE of no byte appends nothing and counts nothing (42_update.md R179). -/
theorem updateBody_nil (s : State) : updateBody [] s = s := by
  rw [updateBody_append (by simpa using s.bufferLen.isLt)]
  simp [updateAppend, updateCount, State.memWriteBuf, Memory.writeBytes]

/-- Settles O23: only the word is gone. -/
theorem zeroLengthUpdateChangesNothing : Obligations.ZeroLengthUpdateChangesNothing := by
  intro s
  rw [exec_update (Nat.zero_le _), State.afterUpdate, List.take_zero, updateBody_nil]
  rfl

/-- The single-byte step that completes a stripe. -/
theorem State.update1_of_full {s : State} (h : s.bufferLen = 31#5) (x : Byte) :
    s.update1 x =
      { s with
        totalLen := s.totalLen + 1#64
        lanes := stripeEat s.lanes (s.validBuf ++ [x])
        buffer := s.buffer.writeBytes s.bufferLen.toNat [x]
        bufferLen := 0#5 } := by
  have hread := s.memReadBuf_memWriteBuf_extend s.bufferLen.toNat [x]
  have hfill : s.bufferLen.toNat + [x].length = 32 := by rw [h]; rfl
  rw [hfill] at hread
  rw [State.update1, if_pos h, State.validBuf, ← hread]
  rfl

/-- UPDATE of one byte in hand is the single-byte step, stale bytes included. -/
theorem updateBody_singleton (s : State) (x : Byte) : updateBody [x] s = s.update1 x := by
  by_cases h : s.bufferLen = 31#5
  · have hlen : s.bufferLen.toNat = 31 := by rw [h]; rfl
    rw [State.update1_of_full h, updateBody_fill (by omega) (by simp; omega)]
    simp [hlen, eatAll_of_lt, tailOf_of_lt, Memory.writeBytes]
  · have hlen : s.bufferLen.toNat < 31 := by bv_omega
    rw [State.update1, if_neg h, updateBody_append (by simp; omega)]
    simp [updateAppend, updateCount, State.memWriteBuf, BitVec.ofNat_add]

/-- The single-byte step does not look at the channels. -/
theorem State.update1_with_channels (s : State) (x : Byte) (cmdq : List CmdWord) (dinq : List Byte) :
    State.update1 { s with cmdq := cmdq, dinq := dinq } x =
      { s.update1 x with cmdq := cmdq, dinq := dinq } := by
  by_cases h : s.bufferLen = 31#5
  · rw [State.update1_of_full h, State.update1_of_full (s := { s with cmdq := cmdq, dinq := dinq }) h,
      State.validBuf_eq_of (s := { s with cmdq := cmdq, dinq := dinq }) (t := s) rfl rfl rfl]
  · rw [State.update1, State.update1, if_neg h, if_neg h]
    rfl

/-- Settles O24: the payload is the one byte, and the phases on it are the single-byte step. -/
theorem oneByteUpdateIsTheSingleByteStep : Obligations.OneByteUpdateIsTheSingleByteStep := by
  intro s x rest hdinq
  have hpayload : s.dinq.take 1 = [x] := by simp [hdinq]
  have hconsumed : s.consumePayload 1 = { s with cmdq := s.cmdq, dinq := rest } := by
    simp [State.consumePayload, hdinq]
  rw [exec_update (by simp [hdinq]), State.afterUpdate, hpayload, hconsumed, updateBody_singleton,
    State.update1_with_channels, State.retire]

/-- Two payloads, one after the other, leave what the two as one leave, up to stale bytes. -/
theorem updateBody_append_sameStream (p q : List Byte) (s : State) :
    SameStream (updateBody q (updateBody p s)) (updateBody (p ++ q) s) := by
  obtain ⟨hlanes, hbytes⟩ := updateBody_net p s
  obtain ⟨hlanes', hbytes'⟩ := updateBody_net q (updateBody p s)
  obtain ⟨hlanes'', hbytes''⟩ := updateBody_net (p ++ q) s
  obtain ⟨htotal, hseed, -⟩ := updateBody_frame p s
  obtain ⟨htotal', hseed', -⟩ := updateBody_frame q (updateBody p s)
  obtain ⟨htotal'', hseed'', -⟩ := updateBody_frame (p ++ q) s
  refine ⟨?lanes, ?seed, ?fill, ?total, ?bytes⟩
  case lanes => rw [hlanes', hlanes'', hlanes, hbytes, ← List.append_assoc, ← eatAll_append]
  case seed => rw [hseed', hseed'', hseed]
  case fill =>
    apply BitVec.eq_of_toNat_eq
    rw [updateBody_fillCount, updateBody_fillCount, updateBody_fillCount, List.length_append]
    omega
  case total => rw [htotal', htotal'', htotal, List.length_append, BitVec.ofNat_add, BitVec.add_assoc]
  case bytes => rw [hbytes', hbytes'', hbytes, ← List.append_assoc, ← tailOf_append]

theorem updateBody_sameStream_foldl_update1 (p : List Byte) (s : State) :
    SameStream (updateBody p s) (p.foldl State.update1 s) := by
  induction p generalizing s with
  | nil => rw [updateBody_nil]; exact ⟨rfl, rfl, rfl, rfl, rfl⟩
  | cons x p ih =>
    have hstep := updateBody_append_sameStream [x] p s
    rw [updateBody_singleton] at hstep
    exact hstep.symm.trans (ih (s.update1 x))

/-- Settles O25: UPDATE is the phases on its payload, and the phases are the single-byte steps. -/
theorem updateIsRepeatedSingleByteSteps : Obligations.UpdateIsRepeatedSingleByteSteps :=
  fun s len hlen => ⟨s.afterUpdate len, exec_update hlen,
    (s.afterUpdate_sameStream len).trans (updateBody_sameStream_foldl_update1 _ s)⟩

end Sys2Proof.Machine
end

section
/-! PROOFS. The core's invariant (10_state.md section 3; 20_memory.md section 4). -/

namespace Sys2Proof.Machine

/-! ### The written bytes of the buffer -/

/-- An address inside a write has been written. -/
theorem Memory.isSome_read_writeBytes_of_mem (m : Memory) {a c : Nat} {bs : List Byte} (h : a ≤ c ∧ c < a + bs.length) :
    ((m.writeBytes a bs).read c).isSome = true := by
  rw [Memory.read_writeBytes, if_pos h, List.getElem?_eq_getElem (by omega)]
  rfl

/-- A write takes no written byte away. -/
theorem Memory.isSome_read_writeBytes (m : Memory) {a c : Nat} {bs : List Byte} (h : (m.read c).isSome = true) :
    ((m.writeBytes a bs).read c).isSome = true := by
  by_cases hc : a ≤ c ∧ c < a + bs.length
  · exact m.isSome_read_writeBytes_of_mem hc
  · rwa [Memory.read_writeBytes, if_neg hc]

/-! ### The invariant of a buffer after each path of UPDATE -/

section Paths

variable {s : State} {len : Nat} (hs : s.Inv) (h : len ≤ s.dinq.length)

include hs h

/-- `buffer_len` and `total_len` count together, and 32 divides 2^64 (10_state.md R40). -/
theorem State.Inv.afterUpdate_fill :
    (s.afterUpdate len).bufferLen.toNat = (s.afterUpdate len).totalLen.toNat % 32 := by
  rw [State.afterUpdate_bufferLen h, State.afterUpdate_totalLen h, BitVec.toNat_add, BitVec.toNat_ofNat, hs.fill_eq]
  omega

/-- Phase U2 writes right above the valid bytes. -/
theorem State.Inv.afterUpdate_of_append (hlt : s.bufferLen.toNat + len < 32) : (s.afterUpdate len).Inv := by
  obtain ⟨-, hbuffer⟩ := State.afterUpdate_of_append h hlt
  have hwidth : (s.dinq.take len).length = len := by simp [h]
  refine ⟨?wf, hs.afterUpdate_fill h, fun a ha => ?written⟩
  case wf => rw [hbuffer]; exact Memory.writeBytes_wf hs.buffer_wf (by omega)
  case written =>
    rw [State.afterUpdate_bufferLen h, Nat.mod_eq_of_lt hlt] at ha
    rw [hbuffer]
    rcases Nat.lt_or_ge a s.bufferLen.toNat with hlow | hhigh
    · exact Memory.isSome_read_writeBytes _ (hs.valid_written a hlow)
    · exact Memory.isSome_read_writeBytes_of_mem _ (by omega)

/-- Phase U5 writes all the valid bytes it leaves, from address 0. -/
theorem State.Inv.afterUpdate_of_stash {m : Memory} {p : List Byte} (hm : m.wf)
    (hbuffer : (s.afterUpdate len).buffer = m.writeBytes 0 (tailOf p))
    (hfill : (s.afterUpdate len).bufferLen.toNat = p.length % 32) : (s.afterUpdate len).Inv := by
  refine ⟨?wf, hs.afterUpdate_fill h, fun a ha => ?written⟩
  case wf => rw [hbuffer]; exact Memory.writeBytes_wf hm (by rw [length_tailOf]; omega)
  case written =>
    rw [hbuffer]
    exact Memory.isSome_read_writeBytes_of_mem _ (by rw [length_tailOf]; omega)

/-- UPDATE keeps the invariant on every path. -/
theorem State.Inv.afterUpdate : (s.afterUpdate len).Inv := by
  have hlt := s.bufferLen.isLt
  rcases Nat.lt_or_ge (s.bufferLen.toNat + len) 32 with hshort | h32
  · exact hs.afterUpdate_of_append h hshort
  · have hfill := State.afterUpdate_bufferLen_of_stripes h h32
    rcases Nat.eq_zero_or_pos s.bufferLen.toNat with hb | hb
    · obtain ⟨-, hbuffer⟩ := State.afterUpdate_of_empty h h32 hb
      refine hs.afterUpdate_of_stash h hs.buffer_wf hbuffer ?_
      rw [hfill, State.fillCount_of_empty hb, List.length_take, Nat.min_eq_left h, Nat.sub_zero]
    · obtain ⟨-, hbuffer⟩ := State.afterUpdate_of_holds h h32 hb
      refine hs.afterUpdate_of_stash h (Memory.writeBytes_wf hs.buffer_wf ?_) hbuffer ?_
      · rw [State.length_take_fillCount h h32, State.fillCount_of_holds hb]
        omega
      · rw [hfill, List.length_drop, List.length_take, Nat.min_eq_left h]

end Paths

/-! ### The other steps -/

/-- The invariant speaks of the buffer's data and the two counters only. -/
theorem State.Inv.of_eq {s t : State} (hs : s.Inv) (hb : t.buffer = s.buffer) (hl : t.bufferLen = s.bufferLen)
    (ht : t.totalLen = s.totalLen) : t.Inv :=
  ⟨by rw [hb]; exact hs.buffer_wf, by rw [hl, ht]; exact hs.fill_eq,
    fun a ha => by rw [hb]; exact hs.valid_written a (hl ▸ ha)⟩

/-- With both counters 0 the invariant asks for the canonical form alone. -/
theorem State.inv_of_empty {t : State} (hm : t.buffer.wf) (hl : t.bufferLen = 0#5) (ht : t.totalLen = 0#64) : t.Inv :=
  ⟨hm, by simp [hl, ht], fun a ha => by simp [hl] at ha⟩

theorem Memory.nil_wf : Memory.wf [] := ⟨.nil, nofun⟩

/-- Settles O32: nothing is written and nothing is counted. -/
theorem resetStateMeetsTheInvariant : Obligations.ResetStateMeetsTheInvariant :=
  State.inv_of_empty Memory.nil_wf rfl rfl

/-- Settles O31: case by case of what a step can lead to. -/
theorem stepKeepsTheInvariant : Obligations.StepKeepsTheInvariant := by
  intro s t hs hstep
  cases step_eq_next_iff.1 hstep with
  | hardwareReset => exact State.inv_of_empty (by simpa using Memory.nil_wf) (by simp) (by simp)
  | idle => exact hs
  | reset => exact State.inv_of_empty (by simpa using hs.buffer_wf) (by simp) (by simp)
  | update _ _ _ hlen => exact hs.afterUpdate hlen
  | wait => exact hs
  | digest => exact hs.of_eq (by simp) (by simp) (by simp)

end Sys2Proof.Machine
end

section
/-! PROOFS. The stream view along the steps (10_state.md R41; 44_compositions_and_laws.md R234, R236). -/

namespace Sys2Proof.Machine

/-- Both counters 0 and the lanes of the seed make the empty stream (10_state.md R41). -/
theorem streamState_nil {s : State} {sd : Word} (hseed : s.seed = sd) (hlanes : s.lanes = lanesOfSeed sd)
    (htotal : s.totalLen = 0#64) (hfill : s.bufferLen = 0#5) : StreamState s sd [] where
  seed_eq := hseed
  total_eq := htotal
  fill_eq := by rw [hfill]; rfl
  bytes_eq := validBuf_empty hfill
  lanes_eq := hlanes

/-- Settles O33: the values of the reset state. -/
theorem resetStateIsTheEmptyStream : Obligations.ResetStateIsTheEmptyStream := streamState_nil rfl rfl rfl rfl

/-- Hardware reset starts the empty stream of the default seed (70_reset_and_hazards.md R280). -/
theorem State.hardwareReset_streamState (s : State) : StreamState s.hardwareReset 0xFFFFFFFFFFFFFFC5#64 [] :=
  streamState_nil s.hardwareReset_seed s.hardwareReset_lanes s.hardwareReset_totalLen s.hardwareReset_bufferLen

/-- DIGEST stays in the stream. -/
theorem StreamState.emit_retire {s : State} {sd : Word} {m : List Byte} (h : StreamState s sd m) (d : Word) :
    StreamState (s.emit d).retire sd m :=
  h.of_sameStream (s.emit_retire_sameStream d)

/-- Settles O35: UPDATE with its payload appends it. -/
theorem updateExtendsTheStream : Obligations.UpdateExtendsTheStream :=
  fun s _ _ len h hlen => ⟨s.afterUpdate len, exec_update hlen, h.afterUpdate hlen⟩

/-- Settles O36: DIGEST emits the running hash, which is the XXH64 of the stream. -/
theorem digestOfAStreamIsXxh64 : Obligations.DigestOfAStreamIsXxh64 :=
  fun s _ _ h => ⟨_, exec_digest s, by simp [h.digestValue_eq], h.emit_retire _⟩

/-- A step that runs a known command leads where the command does. -/
theorem eq_of_step_of_exec {s t u : State} {cw : CmdWord} {rest : List CmdWord} {i : Instr} (hs : step s = .next t)
    (hrst : s.rst = false) (hcmdq : s.cmdq = cw :: rest) (hd : decode cw = .instr i) (he : exec i s = .next u) :
    u = t :=
  Host.Outcome.next.inj (((step_instr hrst hcmdq hd).trans he).symm.trans hs)

/-- Settles O34: where each kind of step leads, and the stream that its command makes there. -/
theorem stepKeepsTheStreamView : Obligations.StepKeepsTheStreamView := by
  intro s t sd m h hs
  refine ⟨fun hrst => ?rst, fun hrst hcmdq => ?idle, fun cw rest hrst hcmdq =>
    ⟨fun sd' hd => ?reset, fun len hd hlen => ?update, fun len hd hlen => ?wait, fun hd => ?digest⟩⟩
  case rst =>
    obtain rfl := Host.Outcome.next.inj ((step_rst hrst).symm.trans hs)
    exact s.hardwareReset_streamState
  case idle =>
    obtain rfl := Host.Outcome.next.inj ((step_idle hrst hcmdq).symm.trans hs)
    exact h
  case reset =>
    obtain rfl := eq_of_step_of_exec hs hrst hcmdq hd (exec_reset sd' s)
    exact s.startStream_retire_streamState sd'
  case update =>
    obtain rfl := eq_of_step_of_exec hs hrst hcmdq hd (exec_update hlen)
    exact h.afterUpdate hlen
  case wait =>
    obtain rfl := eq_of_step_of_exec hs hrst hcmdq hd (execUpdate_wait hlen)
    exact h
  case digest =>
    obtain rfl := eq_of_step_of_exec hs hrst hcmdq hd (exec_digest s)
    exact h.emit_retire _

end Sys2Proof.Machine
end

section
/-! PROOFS. Hidden state is never observed (10_state.md R51; 92_eei_decisions.md section 2). -/

namespace Sys2Proof.Machine

theorem SameView.hardwareReset (s t : State) : SameView s.hardwareReset t.hardwareReset :=
  ⟨s.hardwareReset_sameStream t, by simp, by simp, by simp, by simp⟩

section Commands

variable {s t : State} (h : SameView s t)

include h

theorem SameView.reset (sd : Word) : SameView (s.startStream sd).retire (t.startStream sd).retire where
  stream_eq := ((State.retire_sameStream _).trans (s.startStream_sameStream t sd)).trans
    (State.retire_sameStream _).symm
  cmdq_eq := by simp [h.cmdq_eq]
  dinq_eq := by simp [h.dinq_eq]
  doutq_eq := by simp [h.doutq_eq]
  rst_eq := by simp [h.rst_eq]

theorem SameView.afterUpdate (len : Nat) : SameView (s.afterUpdate len) (t.afterUpdate len) := by
  obtain ⟨-, hdinq, hcmdq, hdoutq, hrst, -⟩ := s.afterUpdate_frame len
  obtain ⟨-, hdinq', hcmdq', hdoutq', hrst', -⟩ := t.afterUpdate_frame len
  refine ⟨?stream, ?cmdq, ?dinq, ?doutq, ?rst⟩
  case stream =>
    have hbody := h.stream_eq.updateBody (s.dinq.take len)
    refine (s.afterUpdate_sameStream len).trans (hbody.trans ?_)
    rw [h.dinq_eq]
    exact (t.afterUpdate_sameStream len).symm
  case cmdq => rw [hcmdq, hcmdq', h.cmdq_eq]
  case dinq => rw [hdinq, hdinq', h.dinq_eq]
  case doutq => rw [hdoutq, hdoutq', h.doutq_eq]
  case rst => rw [hrst, hrst', h.rst_eq]

/-- The two digests are one value. -/
theorem SameView.digest : SameView (s.emit (digestValue s)).retire (t.emit (digestValue t)).retire where
  stream_eq := ((s.emit_retire_sameStream _).trans h.stream_eq).trans (t.emit_retire_sameStream _).symm
  cmdq_eq := by simp [h.cmdq_eq]
  dinq_eq := by simp [h.dinq_eq]
  doutq_eq := by simp [h.doutq_eq, h.stream_eq.digestValue_eq]
  rst_eq := by simp [h.rst_eq]

/-- The other state takes the step of the same kind. -/
theorem SameView.stepsTo {s' : State} (hs : StepsTo s s') : ∃ t', StepsTo t t' ∧ SameView s' t' := by
  cases hs with
  | hardwareReset hrst => exact ⟨_, .hardwareReset (h.rst_eq ▸ hrst), .hardwareReset s t⟩
  | idle hrst hcmdq => exact ⟨t, .idle (h.rst_eq ▸ hrst) (h.cmdq_eq ▸ hcmdq), h⟩
  | reset hrst hcmdq hd => exact ⟨_, .reset (h.rst_eq ▸ hrst) (h.cmdq_eq ▸ hcmdq) hd, h.reset _⟩
  | update hrst hcmdq hd hlen =>
    exact ⟨_, .update (h.rst_eq ▸ hrst) (h.cmdq_eq ▸ hcmdq) hd (h.dinq_eq ▸ hlen), h.afterUpdate _⟩
  | wait hrst hcmdq hd hlen => exact ⟨t, .wait (h.rst_eq ▸ hrst) (h.cmdq_eq ▸ hcmdq) hd (h.dinq_eq ▸ hlen), h⟩
  | digest hrst hcmdq hd => exact ⟨_, .digest (h.rst_eq ▸ hrst) (h.cmdq_eq ▸ hcmdq) hd, h.digest⟩

end Commands

/-- Settles O39: the steps go in pairs, and a refusal depends on the command channel and `rst` alone. -/
theorem hiddenStateIsNeverObserved : Obligations.HiddenStateIsNeverObserved := by
  intro s t h
  refine ⟨fun s' hs => ?next, fun r hs => ?refused⟩
  case next =>
    obtain ⟨t', ht, hview⟩ := h.stepsTo (step_eq_next_iff.1 hs)
    exact ⟨t', step_eq_next_iff.2 ht, hview⟩
  case refused =>
    obtain ⟨cw, rest, res, hrst, hcmdq, hd, rfl⟩ := step_refused_cases hs
    exact step_reserved (h.rst_eq ▸ hrst) (h.cmdq_eq ▸ hcmdq) hd

end Sys2Proof.Machine
end

section
/-! PROOFS. Sequences of commands issued to an idle core (44_compositions_and_laws.md sections 2 and 3). -/

namespace Sys2Proof.Machine

/-- The channels hold the words and the payloads of the commands still to run, and nothing else. -/
structure Pending (s : State) (cs : List Command) : Prop where
  rst_eq : s.rst = false
  cmdq_eq : s.cmdq = commandWords cs
  dinq_eq : s.dinq = commandBytes cs

@[simp] theorem State.issue_doutq (s : State) (cs : List Command) : (s.issue cs).doutq = s.doutq := rfl

theorem pending_issue {s : State} (hrst : s.rst = false) (hcmdq : s.cmdq = []) (hdinq : s.dinq = [])
    (cs : List Command) : Pending (s.issue cs) cs :=
  ⟨hrst, by simp [State.issue, hcmdq], by simp [State.issue, hdinq]⟩

section Head

variable {s : State} {c : Command} {cs : List Command} (h : Pending s (c :: cs))

include h

/-- The step runs the oldest command, whose word decodes to it. -/
theorem Pending.step_head (hwf : c.instr.wf = true) : step s = exec c.instr s :=
  step_instr h.rst_eq (h.cmdq_eq.trans List.map_cons) (encodeThenDecodeIsIdentity c.instr hwf)

theorem Pending.cmdq_tail : s.cmdq.tail = commandWords cs := by rw [h.cmdq_eq]; rfl

theorem Pending.dinq_head : s.dinq = c.payload ++ commandBytes cs := by rw [h.dinq_eq]; rfl

/-- A command without payload leaves the rest to run. -/
theorem Pending.next_of_no_payload {t : State} (hpayload : c.payload = []) (hrst : t.rst = s.rst)
    (hcmdq : t.cmdq = s.cmdq.tail) (hdinq : t.dinq = s.dinq) : Pending t cs :=
  ⟨hrst.trans h.rst_eq, hcmdq.trans h.cmdq_tail, by rw [hdinq, h.dinq_head, hpayload]; rfl⟩

end Head

theorem Pending.reset {s : State} {sd : Word} {cs : List Command} (h : Pending s (.reset sd :: cs)) :
    Pending (s.startStream sd).retire cs :=
  h.next_of_no_payload rfl (by simp) (by simp) (by simp)

theorem Pending.digest {s : State} {cs : List Command} (h : Pending s (.digest :: cs)) :
    Pending (s.emit (digestValue s)).retire cs :=
  h.next_of_no_payload rfl (by simp) (by simp) (by simp)

/-- UPDATE takes just its own payload. -/
theorem Pending.afterUpdate {s : State} {p : List Byte} {cs : List Command} (h : Pending s (.update p :: cs)) :
    Pending (s.afterUpdate p.length) cs := by
  obtain ⟨-, hdinq, hcmdq, -, hrst, -⟩ := s.afterUpdate_frame p.length
  refine ⟨hrst.trans h.rst_eq, hcmdq.trans h.cmdq_tail, ?_⟩
  rw [hdinq, h.dinq_head, Command.payload, List.drop_left]

/-- From the view of a stream, the commands on the channels run to their end and return the digests of their streams. -/
theorem run_pending {s : State} {sd : Word} {m : List Byte} {cs : List Command} (hview : StreamState s sd m)
    (h : Pending s cs) (hwf : ∀ c ∈ cs, c.instr.wf = true) :
    ∃ t : State, Host.Core.run Sys2Proof.core cs.length s = .next t ∧ t.doutq = s.doutq ++ digestsOf sd m cs ∧
      t.cmdq = [] ∧ t.dinq = [] := by
  induction cs generalizing s sd m with
  | nil => exact ⟨s, rfl, by simp [digestsOf], h.cmdq_eq, h.dinq_eq⟩
  | cons c cs ih =>
    have hstep := h.step_head (hwf c List.mem_cons_self)
    have hwf' : ∀ c ∈ cs, c.instr.wf = true := fun c hc => hwf c (List.mem_cons_of_mem _ hc)
    rw [List.length_cons]
    cases c with
    | reset sd' =>
      rw [run_next (hstep.trans (exec_reset sd' s))]
      obtain ⟨t, hrun, hdoutq, hend⟩ := ih (s.startStream_retire_streamState sd') h.reset hwf'
      exact ⟨t, hrun, by simpa [digestsOf] using hdoutq, hend⟩
    | update p =>
      have hlen : p.length ≤ s.dinq.length := by simp [h.dinq_head, Command.payload]
      have hpayload : s.dinq.take p.length = p := by rw [h.dinq_head, Command.payload, List.take_left]
      obtain ⟨-, -, -, hdoutq', -⟩ := s.afterUpdate_frame p.length
      rw [run_next (hstep.trans (exec_update hlen))]
      obtain ⟨t, hrun, hdoutq, hend⟩ := ih (hview.afterUpdate hlen) h.afterUpdate hwf'
      exact ⟨t, hrun, by rw [hdoutq, hdoutq', hpayload, digestsOf], hend⟩
    | digest =>
      rw [run_next (hstep.trans (exec_digest s))]
      obtain ⟨t, hrun, hdoutq, hend⟩ := ih (hview.emit_retire _) h.digest hwf'
      exact ⟨t, hrun, by simpa [digestsOf, hview.digestValue_eq] using hdoutq, hend⟩

/-- Settles O37: issuing puts just the sequence on the channels and changes nothing of the hasher. -/
theorem commandSequencesReturnXxh64Digests : Obligations.CommandSequencesReturnXxh64Digests := by
  intro s sd m cs hview hrst hcmdq hdinq hwf
  have hissue : SameStream (s.issue cs) s := ⟨rfl, rfl, rfl, rfl, State.validBuf_eq_of rfl rfl rfl⟩
  exact run_pending (hview.of_sameStream hissue) (pending_issue hrst hcmdq hdinq cs) hwf

/-! ### One stream from RESET to DIGEST -/

/-- From any idle core, whatever stream it stands for: RESET forgets it. -/
theorem run_issue_reset {s : State} (hrst : s.rst = false) (hcmdq : s.cmdq = []) (hdinq : s.dinq = []) (sd : Word)
    {cs : List Command} (hwf : ∀ c ∈ cs, c.instr.wf = true) :
    ∃ t : State, Host.Core.run Sys2Proof.core (cs.length + 1) (s.issue (.reset sd :: cs)) = .next t ∧
      t.doutq = s.doutq ++ digestsOf sd [] cs := by
  have h := pending_issue hrst hcmdq hdinq (.reset sd :: cs)
  rw [run_next ((h.step_head rfl).trans (exec_reset sd _))]
  obtain ⟨t, hrun, hdoutq, -⟩ := run_pending (State.startStream_retire_streamState _ sd) h.reset hwf
  exact ⟨t, hrun, by simpa using hdoutq⟩

/-- The pieces of a message, one after the other, make the message's stream. -/
theorem digestsOf_pieces (sd : Word) (m : List Byte) (pieces : List (List Byte)) :
    digestsOf sd m (pieces.map Command.update ++ [.digest]) = [xxh64 sd (m ++ pieces.flatten)] := by
  induction pieces generalizing m with
  | nil => simp [digestsOf]
  | cons p pieces ih => simp [digestsOf, ih]

theorem wf_of_pieces {pieces : List (List Byte)} (hlen : pieces.flatten.length < 2 ^ 64) :
    ∀ c ∈ pieces.map Command.update ++ [.digest], c.instr.wf = true := by
  intro c hc
  rcases List.mem_append.1 hc with hc | hc
  · obtain ⟨p, hp, rfl⟩ := List.mem_map.1 hc
    exact decide_eq_true ((List.sublist_flatten_of_mem hp).length_le.trans_lt hlen)
  · rw [List.mem_singleton.1 hc]
    rfl

/-- RESET, the UPDATEs of the pieces in order, and DIGEST return the XXH64 of the whole (44_compositions_and_laws.md
R237). -/
theorem run_issue_pieces {s : State} (hrst : s.rst = false) (hcmdq : s.cmdq = []) (hdinq : s.dinq = []) (sd : Word)
    {pieces : List (List Byte)} (hlen : pieces.flatten.length < 2 ^ 64) :
    ∃ t : State, Host.Core.run Sys2Proof.core (pieces.length + 2)
        (s.issue (.reset sd :: (pieces.map Command.update ++ [.digest]))) = .next t ∧
      t.doutq = s.doutq ++ [xxh64 sd pieces.flatten] := by
  obtain ⟨t, hrun, hdoutq⟩ := run_issue_reset hrst hcmdq hdinq sd (wf_of_pieces hlen)
  rw [digestsOf_pieces, List.nil_append] at hdoutq
  exact ⟨t, by simpa using hrun, hdoutq⟩

/-- ONESHOT is the partition into one piece (44_compositions_and_laws.md R230). -/
theorem run_issue_oneshot {s : State} (hrst : s.rst = false) (hcmdq : s.cmdq = []) (hdinq : s.dinq = []) (sd : Word)
    {m : List Byte} (hlen : m.length < 2 ^ 64) :
    ∃ t : State, Host.Core.run Sys2Proof.core 3 (s.issue (Listing.oneshot m sd).expand) = .next t ∧
      t.doutq = s.doutq ++ [xxh64 sd m] := by
  simpa [Listing.expand] using run_issue_pieces hrst hcmdq hdinq sd (pieces := [m]) (by simpa using hlen)

/-- Settles O38: both return the XXH64 of the whole message. -/
theorem chunkingDoesNotChangeTheDigest : Obligations.ChunkingDoesNotChangeTheDigest := by
  intro s sd pieces hrst hcmdq hdinq hlen
  obtain ⟨t, hrun, hdoutq⟩ := run_issue_pieces hrst hcmdq hdinq sd hlen
  obtain ⟨u, hrun', hdoutq'⟩ := run_issue_oneshot hrst hcmdq hdinq sd hlen
  exact ⟨xxh64 sd pieces.flatten, t, u, hrun, hdoutq, hrun', hdoutq'⟩

end Sys2Proof.Machine
end

section
/-! PROOFS. The rotation, the little-endian reads, and the injectivity of the mixing functions
(40_arithmetic_and_mixing.md sections 1 and 6; 20_memory.md section 2). -/

namespace Sys2Proof.Machine

/-! ### The rotation as a number -/

/-- The part shifted up is a multiple of `2 ^ r`. -/
theorem mul_two_pow_mod_word (x : Nat) {r : Nat} (h : r ≤ 64) :
    x * 2 ^ r % 2 ^ 64 = 2 ^ r * (x % 2 ^ (64 - r)) := by
  rw [← Nat.mul_mod_mul_left, ← pow_add, Nat.add_sub_cancel' h, Nat.mul_comm]

/-- The part shifted down is below `2 ^ r`. -/
theorem toNat_div_two_pow_lt (x : Word) {r : Nat} (h : r ≤ 64) : x.toNat / 2 ^ (64 - r) < 2 ^ r := by
  rw [Nat.div_lt_iff_lt_mul (by positivity), ← pow_add, Nat.add_sub_cancel' h]
  exact x.isLt

theorem rotl64_toNat_or (x : Word) (r : Nat) :
    (rotl64 x r).toNat = x.toNat * 2 ^ r % 2 ^ 64 ||| x.toNat / 2 ^ (64 - r) := by
  rw [rotl64, BitVec.toNat_or, BitVec.toNat_shiftLeft, BitVec.toNat_ushiftRight, Nat.shiftLeft_eq,
    Nat.shiftRight_eq_div_pow]

/-- Settles O41: the two shifted parts have no bit in common. -/
theorem rotateLeftMovesBits : Obligations.RotateLeftMovesBits := by
  intro x r _ hr
  refine ⟨?sum, rotl64_toNat_or x r, fun i hi => ?bits⟩
  case sum =>
    rw [rotl64_toNat_or, mul_two_pow_mod_word _ (by omega),
      Nat.two_pow_add_eq_or_of_lt (toNat_div_two_pow_lt x (by omega))]
  case bits => rw [rotl64_eq_rotateLeft x (by omega), getLsbD_rotateLeft_add x (by omega) hi]

/-! ### Little-endian reads -/

theorem leNat_lt (s : List Byte) : leNat s < 256 ^ s.length := by
  induction s with
  | nil => decide
  | cons b s ih =>
    have hb := b.isLt
    rw [leNat, List.length_cons, pow_succ]
    omega

/-- Sequences of one length with the same number are the same bytes. -/
theorem leNat_injective {s t : List Byte} (hlen : s.length = t.length) (h : leNat s = leNat t) : s = t := by
  induction s generalizing t with
  | nil => exact (List.eq_nil_of_length_eq_zero hlen.symm).symm
  | cons b s ih =>
    cases t with
    | nil => exact nomatch hlen
    | cons c t =>
      have hb := b.isLt
      have hc := c.isLt
      rw [leNat, leNat] at h
      rw [BitVec.eq_of_toNat_eq (x := b) (y := c) (by omega), ih (Nat.succ.inj hlen) (by omega)]

theorem le64_toNat {s : List Byte} (h : s.length = 8) : (le64 s).toNat = leNat s := by
  have hlt : leNat s < 2 ^ 64 := by simpa [h] using leNat_lt s
  rw [le64, BitVec.toNat_ofNat, Nat.mod_eq_of_lt hlt]

theorem le32_toNat {s : List Byte} (h : s.length = 4) : (le32 s).toNat = leNat s := by
  have hlt : leNat s < 2 ^ 32 := by simpa [h] using leNat_lt s
  rw [le32, BitVec.toNat_ofNat, Nat.mod_eq_of_lt hlt]

theorem le64_injective {s t : List Byte} (hs : s.length = 8) (ht : t.length = 8) (h : le64 s = le64 t) : s = t :=
  leNat_injective (hs.trans ht.symm) (by rw [← le64_toNat hs, ← le64_toNat ht, h])

theorem le32_injective {s t : List Byte} (hs : s.length = 4) (ht : t.length = 4) (h : le32 s = le32 t) : s = t :=
  leNat_injective (hs.trans ht.symm) (by rw [← le32_toNat hs, ← le32_toNat ht, h])

/-- Settles O42: the number of 8 or of 4 bytes fits its word. -/
theorem multiByteReadsAreLittleEndian : Obligations.MultiByteReadsAreLittleEndian := by
  intro b0 b1 b2 b3 b4 b5 b6 b7
  rw [le64_toNat rfl, le32_toNat rfl]
  simp only [leNat]
  omega

/-! ### The avalanche and its inverse -/

/-- In two equal shift steps the two middle terms cancel. -/
theorem xorShift_twice (h : Word) (r : Nat) : xorShift (xorShift h r) r = xorShift h (r + r) := by
  apply BitVec.eq_of_getLsbD_eq
  intro i _
  simp only [xorShift, BitVec.getLsbD_xor, BitVec.getLsbD_ushiftRight, Nat.add_assoc]
  cases h.getLsbD i <;> cases h.getLsbD (r + i) <;> simp

theorem xorShift_comm (h : Word) (r q : Nat) : xorShift (xorShift h r) q = xorShift (xorShift h q) r := by
  apply BitVec.eq_of_getLsbD_eq
  intro i _
  simp only [xorShift, BitVec.getLsbD_xor, BitVec.getLsbD_ushiftRight]
  rw [Nat.add_left_comm r q i, Bool.xor_assoc, Bool.xor_assoc, Bool.xor_left_comm (h.getLsbD (r + i))]

/-- Shift steps by 29 and by 58 undo one by 29, which is less than half the width. -/
theorem xorShift_29_29_58 (h : Word) : xorShift (xorShift (xorShift h 29) 29) 58 = h := by
  rw [xorShift_twice, xorShift_xorShift h (by decide)]

theorem xorShift_29_58_29 (h : Word) : xorShift (xorShift (xorShift h 29) 58) 29 = h := by
  rw [xorShift_comm _ 58 29, xorShift_29_29_58]

/-- The three terms of the inverse are those two steps, since a shift by 87 leaves nothing
(40_arithmetic_and_mixing.md R150). -/
theorem xorShift_29_58_eq (h : Word) : xorShift (xorShift h 29) 58 = h ^^^ (h >>> 29) ^^^ (h >>> 58) := by
  apply BitVec.eq_of_getLsbD_eq
  intro i _
  simp only [xorShift, BitVec.getLsbD_xor, BitVec.getLsbD_ushiftRight]
  rw [BitVec.getLsbD_of_ge h (29 + (58 + i)) (by omega), Bool.xor_false]

theorem avalancheInv_eq (h : Word) :
    avalancheInv h =
      xorShift (xorShift (xorShift (xorShift h 32 * 0xE9E9F4C41D6DF849#64) 29) 58 * 0x0BA79078168D4BAF#64) 33 := by
  rw [xorShift_29_58_eq, avalancheInv]

theorem mul_mul_inverse {c ci : Word} (h : c * ci = 1#64) (x : Word) : x * c * ci = x := by
  rw [BitVec.mul_assoc, h, BitVec.mul_one]

/-- Settles O44: step by step, the last step of the one against the first of the other. -/
theorem avalancheIsInvertible : Obligations.AvalancheIsInvertible := by
  intro h
  constructor
  · rw [avalancheInv_eq, avalanche, xorShift_xorShift _ (by decide), mul_mul_inverse P3_mul_inverse,
      xorShift_29_29_58, mul_mul_inverse P2_mul_inverse, xorShift_xorShift _ (by decide)]
  · rw [avalancheInv_eq, avalanche, xorShift_xorShift _ (by decide),
      mul_mul_inverse (by rw [BitVec.mul_comm]; exact P2_mul_inverse), xorShift_29_58_29,
      mul_mul_inverse (by rw [BitVec.mul_comm]; exact P3_mul_inverse), xorShift_xorShift _ (by decide)]

theorem avalanche_injective {g h : Word} (e : avalanche g = avalanche h) : g = h := by
  rw [← (avalancheIsInvertible g).1, e, (avalancheIsInvertible h).1]

/-! ### The mixing steps lose nothing -/

theorem mul_P1_injective {x y : Word} (e : x * P1 = y * P1) : x = y :=
  mul_right_injective_of_inverse P1_mul_inverse e

theorem mul_P2_injective {x y : Word} (e : x * P2 = y * P2) : x = y :=
  mul_right_injective_of_inverse P2_mul_inverse e

theorem mul_P5_injective {x y : Word} (e : x * P5 = y * P5) : x = y :=
  mul_right_injective_of_inverse P5_mul_inverse e

/-- ROUND rotates and multiplies the sum of the accumulator and the product of the word. -/
theorem round_eq_iff {a b v w : Word} : round a v = round b w ↔ a + v * P2 = b + w * P2 :=
  ⟨fun e => rotl64_injective (by decide) (mul_P1_injective e), fun e => by rw [round, round, e]⟩

theorem round_acc_injective {a b w : Word} (e : round a w = round b w) : a = b :=
  add_right_cancel (round_eq_iff.1 e)

theorem round_word_injective {a v w : Word} (e : round a v = round a w) : v = w :=
  mul_P2_injective (add_left_cancel (round_eq_iff.1 e))

theorem mergeRound_eq_iff {g h v w : Word} :
    mergeRound g v = mergeRound h w ↔ g ^^^ round 0 v = h ^^^ round 0 w :=
  ⟨fun e => mul_P1_injective (add_right_cancel e), fun e => by rw [mergeRound, mergeRound, e]⟩

theorem tail8_eq_iff {g h k l : Word} : tail8 g k = tail8 h l ↔ g ^^^ round 0 k = h ^^^ round 0 l :=
  ⟨fun e => rotl64_injective (by decide) (mul_P1_injective (add_right_cancel e)), fun e => by rw [tail8, tail8, e]⟩

theorem tail4_eq_iff {g h : Word} {k l : Word32} :
    tail4 g k = tail4 h l ↔ g ^^^ zext32 k * P1 = h ^^^ zext32 l * P1 :=
  ⟨fun e => rotl64_injective (by decide) (mul_P2_injective (add_right_cancel e)), fun e => by rw [tail4, tail4, e]⟩

theorem tail1_eq_iff {g h : Word} {b c : Byte} :
    tail1 g b = tail1 h c ↔ g ^^^ zext8 b * P5 = h ^^^ zext8 c * P5 :=
  ⟨fun e => rotl64_injective (by decide) (mul_P1_injective e), fun e => by rw [tail1, tail1, e]⟩

theorem zext32_injective {k l : Word32} (e : zext32 k = zext32 l) : k = l := by
  rw [zext32, zext32] at e
  bv_omega

theorem zext8_injective {b c : Byte} (e : zext8 b = zext8 c) : b = c := by
  rw [zext8, zext8] at e
  bv_omega

theorem tail8_acc_injective {g h k : Word} (e : tail8 g k = tail8 h k) : g = h :=
  (BitVec.xor_left_inj _).1 (tail8_eq_iff.1 e)

theorem tail8_word_injective {h k l : Word} (e : tail8 h k = tail8 h l) : k = l :=
  round_word_injective ((BitVec.xor_right_inj _).1 (tail8_eq_iff.1 e))

theorem tail4_acc_injective {g h : Word} {k : Word32} (e : tail4 g k = tail4 h k) : g = h :=
  (BitVec.xor_left_inj _).1 (tail4_eq_iff.1 e)

theorem tail4_word_injective {h : Word} {k l : Word32} (e : tail4 h k = tail4 h l) : k = l :=
  zext32_injective (mul_P1_injective ((BitVec.xor_right_inj _).1 (tail4_eq_iff.1 e)))

theorem tail1_acc_injective {g h : Word} {b : Byte} (e : tail1 g b = tail1 h b) : g = h :=
  (BitVec.xor_left_inj _).1 (tail1_eq_iff.1 e)

theorem tail1_byte_injective {h : Word} {b c : Byte} (e : tail1 h b = tail1 h c) : b = c :=
  zext8_injective (mul_P5_injective ((BitVec.xor_right_inj _).1 (tail1_eq_iff.1 e)))

/-- Settles O45: the two injectivity facts of each step. -/
theorem mixingStepsAreInjective : Obligations.MixingStepsAreInjective :=
  ⟨fun _ _ _ => round_acc_injective, fun _ _ _ => round_word_injective,
    fun _ _ _ e => (BitVec.xor_left_inj _).1 (mergeRound_eq_iff.1 e),
    fun _ _ _ e => round_word_injective ((BitVec.xor_right_inj _).1 (mergeRound_eq_iff.1 e)),
    fun _ _ _ => tail8_acc_injective, fun _ _ _ => tail8_word_injective,
    fun _ _ _ => tail4_acc_injective, fun _ _ _ => tail4_word_injective,
    fun _ _ _ => tail1_acc_injective, fun _ _ _ => tail1_byte_injective⟩

end Sys2Proof.Machine
end

section
/-! PROOFS. What the digest of a message separates (44_compositions_and_laws.md section 3). -/

namespace Sys2Proof.Machine

/-! ### The fold of the tail loses nothing of its accumulator -/

theorem tailWords_injective {n : Nat} {g h : Word} {t : List Byte} (e : tailWords n g t = tailWords n h t) : g = h := by
  induction n generalizing g h t with
  | zero => exact e
  | succ n ih => exact tail8_acc_injective (ih e)

theorem tailOnes_injective {g h : Word} {t : List Byte} (e : tailOnes g t = tailOnes h t) : g = h := by
  induction t generalizing g h with
  | nil => exact e
  | cons b t ih => exact tail1_acc_injective (ih e)

theorem tailShort_injective {g h : Word} {t : List Byte} (e : tailShort g t = tailShort h t) : g = h := by
  rw [tailShort, tailShort] at e
  split at e
  · exact tail4_acc_injective (tailOnes_injective e)
  · exact tailOnes_injective e

theorem tailFold_injective {g h : Word} {t : List Byte} (e : tailFold g t = tailFold h t) : g = h :=
  tailWords_injective (tailShort_injective e)

/-- A short message starts from its seed (44_compositions_and_laws.md R233). -/
theorem xxh64_of_short {m : List Byte} (h : m.length < 32) (sd : Word) :
    xxh64 sd m = avalanche (tailFold (sd + P5 + BitVec.ofNat 64 m.length) (tailOf m)) := by
  rw [xxh64, xxh64Start, if_pos (by omega)]

/-- Settles O46: every operation on the way from the seed to the digest is injective. -/
theorem shortMessagesSeparateAllSeeds : Obligations.ShortMessagesSeparateAllSeeds := by
  intro m s1 s2 hlen hne heq
  rw [xxh64_of_short hlen, xxh64_of_short hlen] at heq
  exact hne (add_right_cancel (add_right_cancel (tailFold_injective (avalanche_injective heq))))

/-! ### The fold of the tail, word by word -/

/-- The words taken first are those of what stands first. -/
theorem tailWords_append (n k : Nat) (h : Word) (t p : List Byte) (ht : t.length = 8 * n) :
    tailWords (n + k) h (t ++ p) = tailWords k (tailWords n h t) p := by
  induction n generalizing h t with
  | zero =>
    rw [List.eq_nil_of_length_eq_zero ht, Nat.zero_add]
    rfl
  | succ n ih =>
    rw [Nat.succ_add, tailWords, tailWords, List.take_append_of_le_length (by omega),
      List.drop_append_of_le_length (by omega), ih _ _ (by rw [List.length_drop]; omega)]

/-- Whole 8-byte words first, then the rest. -/
theorem tailFold_append_words {t : List Byte} (ht : t.length % 8 = 0) (h : Word) (p : List Byte) :
    tailFold h (t ++ p) = tailFold (tailWords (t.length / 8) h t) p := by
  have hlen : (t ++ p).length / 8 = t.length / 8 + p.length / 8 := by rw [List.length_append]; omega
  rw [tailFold, tailFold, hlen, tailWords_append _ _ _ _ _ (by omega), Nat.mul_add,
    show 8 * (t.length / 8) = t.length by omega, List.drop_length_add_append]

/-- One 8-byte word. -/
theorem tailFold_word8 {w : List Byte} (hw : w.length = 8) (h : Word) (p : List Byte) :
    tailFold h (w ++ p) = tailFold (tail8 h (le64 w)) p := by
  rw [tailFold_append_words (by rw [hw]), hw, tailWords, List.take_of_length_le hw.le]
  rfl

theorem tailFold_of_lt {t : List Byte} (h8 : t.length < 8) (h : Word) : tailFold h t = tailShort h t := by
  rw [tailFold, Nat.div_eq_of_lt h8]
  rfl

/-- The 4-byte word, with only single bytes after it. -/
theorem tailFold_word4 {w p : List Byte} (hw : w.length = 4) (hp : p.length < 4) (h : Word) :
    tailFold h (w ++ p) = tailOnes (tail4 h (le32 w)) p := by
  rw [tailFold_of_lt (by rw [List.length_append]; omega), tailShort, if_pos (by rw [List.length_append]; omega), ← hw,
    List.take_left, List.drop_left]

/-- Single bytes after no byte or after a 4-byte word. -/
theorem tailFold_short_append_ones {t p : List Byte} (ht : t.length = 0 ∨ t.length = 4) (hp : p.length < 4)
    (h : Word) : tailFold h (t ++ p) = tailOnes (tailFold h t) p := by
  rcases ht with h0 | h4
  · obtain rfl := List.eq_nil_of_length_eq_zero h0
    rw [List.nil_append, tailFold_of_lt (by omega), tailShort, if_neg (by omega)]
    rfl
  · have hword := tailFold_word4 (p := []) h4 (by decide) h
    rw [List.append_nil] at hword
    rw [tailFold_word4 h4 hp, hword]
    rfl

/-- The single bytes are those after the last whole 4 bytes. -/
theorem tailFold_append_ones {t p : List Byte} (ht : t.length % 4 = 0) (hp : p.length < 4) (h : Word) :
    tailFold h (t ++ p) = tailOnes (tailFold h t) p := by
  have hwords : (t.take (8 * (t.length / 8))).length % 8 = 0 := by rw [List.length_take]; omega
  have hshort : (t.drop (8 * (t.length / 8))).length = 0 ∨ (t.drop (8 * (t.length / 8))).length = 4 := by
    rw [List.length_drop]; omega
  rw [← List.take_append_drop (8 * (t.length / 8)) t, List.append_assoc, tailFold_append_words hwords,
    tailFold_append_words hwords, tailFold_short_append_ones hshort hp]

/-! ### One word of the tail -/

/-- A message whose end does not complete a stripe: what stands before decides the lanes, and the end is in the tail. -/
theorem xxh64_append_of_tail {before p : List Byte} (h : before.length % 32 + p.length < 32) (sd : Word) :
    xxh64 sd (before ++ p) =
      avalanche (tailFold
        ((if (before.length + p.length) % 2 ^ 64 < 32 then sd + P5 else laneMerge (eatAll (lanesOfSeed sd) before)) +
          BitVec.ofNat 64 (before.length + p.length))
        (tailOf before ++ p)) := by
  have hlt : (tailOf before ++ p).length < 32 := by rw [List.length_append, length_tailOf]; exact h
  rw [xxh64, xxh64Start, eatAll_append, eatAll_of_lt hlt, tailOf_append, tailOf_of_lt hlt, List.length_append]

/-- Such ends of one length are told apart as the fold of the tail tells them apart. -/
theorem xxh64_ne_of_tailFold_ne {before p q : List Byte} (hlen : p.length = q.length)
    (h : before.length % 32 + p.length < 32)
    (hne : ∀ g : Word, tailFold g (tailOf before ++ p) ≠ tailFold g (tailOf before ++ q)) (sd : Word) :
    xxh64 sd (before ++ p) ≠ xxh64 sd (before ++ q) := by
  intro e
  rw [xxh64_append_of_tail h, xxh64_append_of_tail (hlen ▸ h), ← hlen] at e
  exact hne _ (avalanche_injective e)

section TailWord

variable {t w w' rest : List Byte} (hne : w ≠ w')

include hne

theorem tailFold_ne_of_word8 (hw : w.length = 8) (hw' : w'.length = 8) (ht : t.length % 8 = 0) (g : Word) :
    tailFold g (t ++ (w ++ rest)) ≠ tailFold g (t ++ (w' ++ rest)) := by
  intro e
  rw [tailFold_append_words ht, tailFold_append_words ht, tailFold_word8 hw, tailFold_word8 hw'] at e
  exact hne (le64_injective hw hw' (tail8_word_injective (tailFold_injective e)))

theorem tailFold_ne_of_word4 (hw : w.length = 4) (hw' : w'.length = 4) (ht : t.length % 8 = 0)
    (hrest : rest.length < 4) (g : Word) : tailFold g (t ++ (w ++ rest)) ≠ tailFold g (t ++ (w' ++ rest)) := by
  intro e
  rw [tailFold_append_words ht, tailFold_append_words ht, tailFold_word4 hw hrest, tailFold_word4 hw' hrest] at e
  exact hne (le32_injective hw hw' (tail4_word_injective (tailOnes_injective e)))

/-- The single bytes before, among which are those of `t` after its whole 4 bytes. -/
theorem tailFold_ne_of_byte (hw : w.length = 1) (hw' : w'.length = 1)
    (hrest : t.length % 4 + 1 + rest.length < 4) (g : Word) :
    tailFold g (t ++ (w ++ rest)) ≠ tailFold g (t ++ (w' ++ rest)) := by
  obtain ⟨b, rfl⟩ := List.length_eq_one_iff.1 hw
  obtain ⟨c, rfl⟩ := List.length_eq_one_iff.1 hw'
  intro e
  rw [← List.take_append_drop (4 * (t.length / 4)) t, List.append_assoc, List.append_assoc,
    tailFold_append_ones (by rw [List.length_take]; omega) (by simp; omega),
    tailFold_append_ones (by rw [List.length_take]; omega) (by simp; omega)] at e
  simp only [tailOnes, List.foldl_append, List.foldl_cons, List.foldl_nil] at e
  exact hne (congrArg (fun b => [b]) (tail1_byte_injective (tailOnes_injective e)))

end TailWord

/-- Settles O47: the changed word is in the tail, and the fold takes it in injectively. -/
theorem changingOneTailWordAlwaysShows : Obligations.ChangingOneTailWordAlwaysShows := by
  intro sd before w w' rest hlen hne hcase
  simp only [List.append_assoc, List.length_append] at hcase ⊢
  have htail : before.length % 32 + (w ++ rest).length < 32 := by rw [List.length_append]; omega
  refine xxh64_ne_of_tailFold_ne (by simp [hlen]) htail (fun g => ?_) sd
  rcases hcase with ⟨hw, h8, -⟩ | ⟨hw, h8, hrest⟩ | ⟨hw, hrest⟩
  · exact tailFold_ne_of_word8 hne hw (hlen ▸ hw) (by rw [length_tailOf]; omega) g
  · exact tailFold_ne_of_word4 hne hw (hlen ▸ hw) (by rw [length_tailOf]; omega) hrest g
  · exact tailFold_ne_of_byte hne hw (hlen ▸ hw) (by rw [length_tailOf]; omega) g

end Sys2Proof.Machine
end

section
/-! PROOFS. The host's inputs and hardware reset (00_scope.md section 4; 60_exceptions.md section 3;
70_reset_and_hazards.md sections 1 and 5). -/

namespace Sys2Proof.Machine

/-! ### The data channel -/

/-- Beats put the bytes on `din` in their order: each beat its first `width` bytes, the later ones the rest. -/
theorem State.hostBeats_eq {width fuel : Nat} {bytes : List Byte} (hw : 0 < width) (hf : bytes.length ≤ fuel)
    (s : State) : State.hostBeats width fuel bytes s = { s with dinq := s.dinq ++ bytes } := by
  induction fuel generalizing bytes s with
  | zero =>
    rw [List.eq_nil_of_length_eq_zero (Nat.le_zero.1 hf), List.append_nil]
    rfl
  | succ fuel ih =>
    cases bytes with
    | nil =>
      rw [List.append_nil]
      rfl
    | cons b bs =>
      have hrest : ((b :: bs).drop width).length ≤ fuel := by
        rw [List.length_drop]
        omega
      rw [State.hostBeats, ih hrest, State.hostBeat, List.append_assoc, List.take_append_drop]

/-- Settles O40: as many beats as bytes are more than enough. -/
theorem beatWidthDoesNotMatter : Obligations.BeatWidthDoesNotMatter :=
  fun s _ _ hw => State.hostBeats_eq hw (Nat.le_refl _) s

theorem State.hostPayload_eq (s : State) (bytes : List Byte) :
    s.hostPayload bytes = { s with dinq := s.dinq ++ bytes } :=
  beatWidthDoesNotMatter s _ bytes (Nat.succ_pos _)

theorem State.hostTakeDigest_of_nil {s : State} (h : s.doutq = []) : s.hostTakeDigest = (none, s) := by
  cases s
  cases h
  rfl

theorem State.hostTakeDigest_of_cons {s : State} {d : Word} {ds : List Word} (h : s.doutq = d :: ds) :
    s.hostTakeDigest = (some d, { s with doutq := ds }) := by
  rw [State.hostTakeDigest, h]
  rfl

/-- Settles O48: one input, one channel. -/
theorem hostInputsKeepTheHasherState : Obligations.HostInputsKeepTheHasherState :=
  fun s _ bytes => ⟨rfl, s.hostPayload_eq bytes, State.hostTakeDigest_of_nil, fun _ _ => State.hostTakeDigest_of_cons⟩

/-! ### Hardware reset -/

/-- The lanes of the default seed (70_reset_and_hazards.md R280). -/
theorem lanesOfSeed_defaultSeed :
    lanesOfSeed defaultSeed =
      ⟨0x60EA27EEADC0B59B#64, 0xC2B2AE3D27D4EB14#64, 0xFFFFFFFFFFFFFFC5#64, 0x61C8864E7A14353E#64⟩ := by decide

/-- With no byte written every buffer byte is the free value of the draw. -/
theorem State.bufByte_of_nil {s : State} (h : s.buffer = []) (a : Nat) :
    s.bufByte a = Config.bufPoweron s.bufDraw a := by
  rw [State.bufByte, h]
  rfl

/-- Settles O7: field by field. -/
theorem resetStateHasTheSpecifiedValues : Obligations.ResetStateHasTheSpecifiedValues :=
  ⟨lanesOfSeed_defaultSeed, rfl, rfl, rfl, rfl, rfl, rfl, State.bufByte_of_nil rfl⟩

/-- Settles O8: between two steps the host resets at once, and the step of the event is that reset. -/
theorem hardwareResetOverridesEverything : Obligations.HardwareResetOverridesEverything := by
  intro s
  rw [State.hostReset_eq]
  refine ⟨⟨s.hardwareReset_lanes.trans lanesOfSeed_defaultSeed, s.hardwareReset_seed, by simp, by simp, by simp,
    by simp, by simp, by simp, fun a => ?buffer⟩, step_rst⟩
  case buffer => rw [State.bufByte_of_nil s.hardwareReset_buffer, State.hardwareReset_bufDraw]

/-- A command word on the channel is no matter of the stream. -/
theorem State.hostCommand_sameStream (s : State) (cw : CmdWord) : SameStream (s.hostCommand cw) s :=
  ⟨by simp, by simp, by simp, by simp, State.validBuf_eq_of (by simp) (by simp) (by simp)⟩

/-- The digest of the empty message under the default seed (44_compositions_and_laws.md R239). -/
theorem xxh64_defaultSeed_nil : xxh64 0xFFFFFFFFFFFFFFC5#64 [] = 0x487D0FF80433C535#64 := by
  rw [xxh64_nil]
  decide

/-- Settles O51: the reset core is the empty stream with empty channels, and what comes after acts on that. -/
theorem hardwareResetIsImmediate : Obligations.HardwareResetIsImmediate := by
  intro s cw bytes
  rw [State.hostReset_eq]
  have hview := s.hardwareReset_streamState
  refine ⟨hview, by simp, by simp, State.hostTakeDigest_of_nil (by simp), by simp, by simp [State.hostPayload_eq],
    fun hd => ?digest⟩
  case digest =>
    have hvalue := (hview.of_sameStream (s.hardwareReset.hostCommand_sameStream cw)).digestValue_eq
    rw [xxh64_defaultSeed_nil] at hvalue
    refine ⟨_, (step_instr (rest := []) (by simp) (by simp) hd).trans (exec_digest _), ?_, by simp⟩
    simp [hvalue]

end Sys2Proof.Machine
end

section
/-! PROOFS. The reference vectors (95_test_vectors.md section 1; 44_compositions_and_laws.md R242). -/

namespace Sys2Proof.Machine

/-! ### The pieces of a message -/

theorem flatten_piecesFrom {size fuel : Nat} {m : List Byte} (hs : 0 < size) (hf : m.length ≤ fuel) :
    (piecesFrom size fuel m).flatten = m := by
  induction fuel generalizing m with
  | zero =>
    rw [List.eq_nil_of_length_eq_zero (Nat.le_zero.1 hf)]
    rfl
  | succ fuel ih =>
    cases m with
    | nil => rfl
    | cons b bs =>
      have hrest : ((b :: bs).drop size).length ≤ fuel := by
        rw [List.length_drop]
        omega
      rw [piecesFrom, List.flatten_cons, ih hrest, List.take_append_drop]

/-- The pieces make the message. -/
theorem flatten_piecesOf {size : Nat} (hs : 0 < size) (m : List Byte) : (piecesOf size m).flatten = m :=
  flatten_piecesFrom hs (Nat.le_refl _)

theorem length_testBytes (n : Nat) (r : Word32) : (testBytes n r).length = n := by
  induction n generalizing r with
  | zero => rfl
  | succ n ih => rw [testBytes, List.length_cons, ih]

/-- The recurrence of the test buffer. -/
def square (r : Word32) : Word32 := r * r

/-- Dropping bytes of the test buffer is taking the recurrence that many steps on. -/
theorem drop_testBytes (k n : Nat) (r : Word32) :
    (testBytes (k + n) r).drop k = testBytes n (square^[k] r) := by
  induction k generalizing r with
  | zero => rw [Nat.zero_add]; rfl
  | succ k ih => rw [Nat.succ_add, testBytes, List.drop_succ_cons, ih, Function.iterate_succ_apply, square]

/-! ### The six vectors as values -/

/-- The first value is odd, so squaring it leads to 1, where the recurrence stays. -/
theorem square_iterate_96 : square^[96] 2654435761#32 = 1#32 := by
  have hone : square^[32] 2654435761#32 = 1#32 := by decide
  rw [show 96 = 64 + 32 by decide, Function.iterate_add_apply, hone]
  exact Function.iterate_fixed (by decide) 64

theorem tailOf_testBuffer_101 : tailOf (testBuffer 101) = List.replicate 5 0#8 := by
  rw [tailOf, testBuffer, length_testBytes, show 32 * (101 / 32) = 96 by decide, show 101 = 96 + 5 by decide,
    drop_testBytes, square_iterate_96]
  decide

/-- The longest vector by the lanes after its three stripes. -/
theorem xxh64_testBuffer_101_of_lanes {sd : Word} {l : Lanes} (h : eatAll (lanesOfSeed sd) (testBuffer 101) = l) :
    xxh64 sd (testBuffer 101) = avalanche (tailFold (laneMerge l + 101#64) (List.replicate 5 0#8)) := by
  rw [xxh64, xxh64Start, h, tailOf_testBuffer_101, testBuffer, length_testBytes, if_neg (by decide)]

theorem eatAll_testBuffer_101 :
    eatAll (lanesOfSeed 0#64) (testBuffer 101) =
      ⟨0xB9B3DB060ABA209B#64, 0x11DAD5757189DCDD#64, 0x719D3B6BA55EC282#64, 0xB4C5CFEB3EC393A7#64⟩ := by decide

theorem eatAll_testBuffer_101_seeded :
    eatAll (lanesOfSeed 2654435761#64) (testBuffer 101) =
      ⟨0xE8824C3EC4A4A5A7#64, 0xDEE0C05FB1602C70#64, 0x636191E7DF49478E#64, 0x6EA27555DFAE420F#64⟩ := by decide

theorem xxh64_testBuffer_1 : xxh64 0#64 (testBuffer 1) = 0x4FCE394CC88952D8#64 := by decide
theorem xxh64_testBuffer_1_seeded : xxh64 2654435761#64 (testBuffer 1) = 0x739840CB819FA723#64 := by decide
theorem xxh64_testBuffer_14 : xxh64 0#64 (testBuffer 14) = 0xCFFA8DB881BC3A3D#64 := by decide
theorem xxh64_testBuffer_14_seeded : xxh64 2654435761#64 (testBuffer 14) = 0x5B9611585EFCC9CB#64 := by decide
theorem xxh64_testBuffer_101 : xxh64 0#64 (testBuffer 101) = 0x0EAB543384F878AD#64 := by
  rw [xxh64_testBuffer_101_of_lanes eatAll_testBuffer_101]
  decide

theorem xxh64_testBuffer_101_seeded : xxh64 2654435761#64 (testBuffer 101) = 0xCAA65939306F1E21#64 := by
  rw [xxh64_testBuffer_101_of_lanes eatAll_testBuffer_101_seeded]
  decide

/-- Both ways to hash a message on an idle core return its XXH64 (44_compositions_and_laws.md R242). -/
theorem idle_core_returns {m : List Byte} {sd d : Word} (hlen : m.length < 2 ^ 64) (hd : xxh64 sd m = d) {s : State}
    (hrst : s.rst = false) (hcmdq : s.cmdq = []) (hdinq : s.dinq = []) :
    (∃ t : State, Host.Core.run Sys2Proof.core 3 (s.issue (Listing.oneshot m sd).expand) = .next t ∧
        t.doutq = s.doutq ++ [d]) ∧
      ∃ t : State, Host.Core.run Sys2Proof.core ((piecesOf 15 m).length + 2)
          (s.issue (.reset sd :: ((piecesOf 15 m).map Command.update ++ [.digest]))) = .next t ∧
        t.doutq = s.doutq ++ [d] := by
  subst hd
  have hpieces := flatten_piecesOf (show 0 < 15 by decide) m
  have hrun := run_issue_pieces hrst hcmdq hdinq sd (pieces := piecesOf 15 m) (by rwa [hpieces])
  rw [hpieces] at hrun
  exact ⟨run_issue_oneshot hrst hcmdq hdinq sd hlen, hrun⟩

/-- Settles O50: six values, and the core returns the value of each. -/
theorem referenceVectorsHold : Obligations.ReferenceVectorsHold := by
  intro row hrow
  have hrow' : row.1 ≤ 101 ∧ xxh64 row.2.1 (testBuffer row.1) = row.2.2 := by
    simp only [List.mem_cons, List.not_mem_nil, or_false] at hrow
    obtain rfl | rfl | rfl | rfl | rfl | rfl := hrow
    · exact ⟨by decide, xxh64_testBuffer_1⟩
    · exact ⟨by decide, xxh64_testBuffer_1_seeded⟩
    · exact ⟨by decide, xxh64_testBuffer_14⟩
    · exact ⟨by decide, xxh64_testBuffer_14_seeded⟩
    · exact ⟨by decide, xxh64_testBuffer_101⟩
    · exact ⟨by decide, xxh64_testBuffer_101_seeded⟩
  obtain ⟨hsize, hvalue⟩ := hrow'
  have hlen : (testBuffer row.1).length < 2 ^ 64 := by
    rw [testBuffer, length_testBytes]
    omega
  exact ⟨hvalue, fun s => idle_core_returns hlen hvalue⟩

end Sys2Proof.Machine
end
